-- ==== Sys2Proof/Word.lean ====
section
/-! DEFINITION. The packer's word types (widths from 00_scope.md R6) and its named values. -/

namespace Sys2Proof

/-- A byte: 8 bits, bit 7 the most significant (R7). -/
abbrev Byte := BitVec 8

/-- The sequence counter's type, `SEQ_W` = 8 bits (R6, R11). -/
abbrev SeqNum := BitVec 8

/-- The source identifier's type, `SID_W` = 16 bits (R6, R12). -/
abbrev SourceId := BitVec 16

/-- The value operand and the accumulator, `VALUE_W` = 32 bits (R6, R17). -/
abbrev Value := BitVec 32

/-- One command word, presented whole (R50). -/
abbrev CmdWord := BitVec 48

/-- Which of the two packet instances (R15: "exactly two packet instances"). -/
inductive PacketId where
  | p0
  | p1
deriving DecidableEq, Repr, Inhabited

/-- The command in progress, `OPK` (R21). -/
inductive Opk where
  | write
  | flush
  | flushR
deriving DecidableEq, Repr, Inhabited

end Sys2Proof
end

