-- ==== Sys2Proof/Syntax.lean ====
section
/-! DEFINITION. The four commands of 30_encoding.md R52, one constructor per row of the opcode table. -/

namespace Sys2Proof

/-- A command with its operands as R53 assembles them. Ignored fields of the word (R54) are not part of it. -/
inductive Instr where
  /-- INIT: `source_id = cmd[15:0]`, any value (R53, R70). -/
  | init (sid : SourceId)
  /-- WRITE: `value = cmd[31:0]`, `width = cmd[39:32]` read as 0..255 (R53, R75). -/
  | write (value : Value) (width : Byte)
  /-- FLUSH: no operands (R53, R90). -/
  | flush
  /-- FLUSH.R: no operands (R53, R91). -/
  | flushR
deriving DecidableEq, Repr

end Sys2Proof
end

