-- ==== Sys2Proof/WellFormed.lean ====
section
/-! DEFINITION. Operand legality (30_encoding.md R51, R56). A WRITE whose width is illegal is still a command the
decoder reads: the packer answers it with an accept code (41_write_data.md R75), so legality is no decoding matter. -/

namespace Sys2Proof

/-- A legal width: `1 <= width <= 32` (R75). -/
abbrev legalWidth (width : Byte) : Prop := 1 ≤ width.toNat ∧ width.toNat ≤ 32

/-- A command whose operands are in the spec's ranges (R51). -/
abbrev Instr.WellFormed : Instr → Prop
  | .init _ => True
  | .write _ width => legalWidth width
  | .flush => True
  | .flushR => True

/-- `Instr.WellFormed` as a check. -/
def Instr.wellFormed : Instr → Bool
  | .init _ => true
  | .write _ width => decide (legalWidth width)
  | .flush => true
  | .flushR => true

end Sys2Proof
end

