-- ==== Sys2Proof/Decode.lean ====
section
/-! DEFINITION. The command word `CMD48` (30_encoding.md R50 to R56): a total decoder that names what it rejects, and
after it the encoder. -/

namespace Sys2Proof

/-- `op`, bits 47:40 (R50). -/
def opField (w : CmdWord) : Byte := w.extractLsb' 40 8

/-- `width`, bits 39:32 (R50). -/
def widthField (w : CmdWord) : Byte := w.extractLsb' 32 8

/-- `value`, bits 31:0 (R50). -/
def valueField (w : CmdWord) : Value := w.extractLsb' 0 32

/-- INIT's `source_id`, bits 15:0 (R50, R53). -/
def sidField (w : CmdWord) : SourceId := w.extractLsb' 0 16

/-- What decoding a word gives: a command, or a reserved `op` (R55). -/
inductive Decoded where
  | instr (i : Instr)
  /-- The word's `op` is reserved; the packer answers `ILLEGAL_OP` (R55), so this is no stop. -/
  | illegalOp (op : Byte)
deriving DecidableEq, Repr

/-- The opcode map of R52. It reads the word alone and nothing of the fields R53 calls ignored. -/
def decode (w : CmdWord) : Decoded :=
  if opField w = 0x01#8 then .instr (.init (sidField w))
  else if opField w = 0x02#8 then .instr (.write (valueField w) (widthField w))
  else if opField w = 0x03#8 then .instr .flush
  else if opField w = 0x04#8 then .instr .flushR
  else .illegalOp (opField w)

/-- The 48-bit word made of the three fields of R50. -/
def cmd48 (op width : Byte) (value : Value) : CmdWord := op ++ width ++ value

/-- The operation code of a command (R52). -/
def Instr.op : Instr → Byte
  | .init _ => 0x01#8
  | .write _ _ => 0x02#8
  | .flush => 0x03#8
  | .flushR => 0x04#8

/-- The word an assembler writes for a command: zero in the ignored fields (R54, R61). -/
def encode : Instr → CmdWord
  | .init sid => cmd48 0x01#8 0#8 (sid.setWidth 32)
  | .write value width => cmd48 0x02#8 width value
  | .flush => cmd48 0x03#8 0#8 0#32
  | .flushR => cmd48 0x04#8 0#8 0#32

/-- The bits of the word a command's meaning depends on; the others are don't-care (R53, R54). -/
def Instr.usedBits : Instr → CmdWord
  | .init _ => 0xFF000000FFFF#48
  | .write _ _ => 0xFFFFFFFFFFFF#48
  | .flush => 0xFF0000000000#48
  | .flushR => 0xFF0000000000#48

/-- The command word of the opcode table's numbering: one 48-bit word, bit 0 its least significant bit; bits at or
above `nbits` are zero. -/
def tableWord (nbits w : Nat) : CmdWord := BitVec.ofNat 48 (w % 2 ^ nbits)

/-- The command the decoder reads from a word numbered as the opcode table numbers it. -/
def decodeTableWord (nbits w : Nat) : Option Instr :=
  match decode (tableWord nbits w) with
  | .instr i => some i
  | .illegalOp _ => none

end Sys2Proof
end

