-- ==== Sys2Proof/Config.lean ====
section
/-! DEFINITION. The implementation parameters of 00_scope.md R6, and the free values: opaque constants
for everything 10_state.md R28 calls unspecified after reset. -/

namespace Sys2Proof

/-- Order of the two `source_id` bytes in the wire image, the open parameter `SRCID_ORDER` (R6, R37, D16). -/
inductive SrcIdOrder where
  | msbFirst
  | lsbFirst
deriving DecidableEq, Repr, Inhabited

/-- The two parameters the model takes as arguments (R6, R29). DESIGN CHOICE (log 1): they stand in State,
and no step changes them, so that every statement over all states is one over all parameters. -/
structure Params where
  cap        : Nat
  srcIdOrder : SrcIdOrder
deriving DecidableEq, Repr

/-- `CAPBITS = 8*CAP` (R6). -/
def Params.capBits (ps : Params) : Nat := 8 * ps.cap

/-- `LEN = CAP + 4` (R6, R35). -/
def Params.len (ps : Params) : Nat := ps.cap + 4

/-- The legal range 1..31 of `CAP` (R6, D17). -/
abbrev Params.legal (ps : Params) : Prop := 1 ≤ ps.cap ∧ ps.cap ≤ 31

/-- The default capacity, 16 bytes (R6). -/
def Config.defaultCap : Nat := 16

/-- The byte order of `source_id` this hardware has: not stated (N3, D16, U8). Free value, log 2. -/
opaque Config.srcIdOrder : SrcIdOrder

/-! Free draws of R28, one function per state element, applied to the number of the reset. Log 3. -/

/-- `SEQ` after reset number `n`. -/
opaque Config.resetSeq : Nat → SeqNum
/-- `SRC_ID` after reset number `n`. -/
opaque Config.resetSrcId : Nat → SourceId
/-- `ACC` after reset number `n`. -/
opaque Config.resetAcc : Nat → Value
/-- `REM` after reset number `n`: any of its values 0..32 (R18). -/
opaque Config.resetRem : Nat → Fin 33
/-- `OPK` after reset number `n`. -/
opaque Config.resetOpk : Nat → Opk
/-- `P[i].vbc` after reset number `n`: it "may exceed `CAPBITS`" (R28). -/
opaque Config.resetVbc : Nat → PacketId → Byte
/-- `P[i].seq` after reset number `n`: it "need not equal `SEQ`" (R28). -/
opaque Config.resetPktSeq : Nat → PacketId → SeqNum
/-- `P[i].sid` after reset number `n`. -/
opaque Config.resetPktSid : Nat → PacketId → SourceId
/-- `P[i].data[j]` after reset number `n`: "independently per field and byte" (R28). -/
opaque Config.resetData : Nat → PacketId → Nat → Byte

end Sys2Proof
end

