-- ==== Sys2Proof/Machine/State.lean ====
section
/-! DEFINITION. The packer's state (10_state.md R10 to R22), the events and outputs of its interface (R29, R98), and the
state after reset (R28). -/

namespace Sys2Proof.Machine

/-- `GUARD`, the re-entrancy flag (R13). `flushing` is also its value before the first INIT. -/
inductive Guard where
  | ready
  | flushing
deriving DecidableEq, Repr

/-- `PH`, the sequencer phase (R20). -/
inductive Phase where
  | idle
  | run
  | sendWait
deriving DecidableEq, Repr

/-- The `data` array of one packet: the list of its `CAP` bytes, `data[0]` first (R14, R31). DESIGN CHOICE (log 17). -/
abbrev Memory := List Byte

/-- A packet's four fields (R14). -/
structure Packet where
  vbc  : Byte
  seq  : SeqNum
  sid  : SourceId
  data : Memory
deriving DecidableEq, Repr

/-- The complete state of the packer: R10's record "and nothing else". -/
structure Block where
  seq   : SeqNum
  srcId : SourceId
  guard : Guard
  p0    : Packet
  p1    : Packet
  acc   : Value
  rem   : Fin 33
  ph    : Phase
  opk   : Opk
deriving DecidableEq, Repr

/-- The four kinds of event (R98). -/
inductive Event where
  /-- From the platform. -/
  | reset
  /-- From the host: one whole command word. -/
  | cmd (w : CmdWord)
  /-- From the engine itself. -/
  | tick
  /-- From the send collaborator, with its status byte (R59). -/
  | sendRet (status : Byte)
deriving DecidableEq, Repr

/-- The accept codes a command can be answered with (R57). -/
inductive AcceptCode where
  | ok
  | dropped
  | invalidWidth
  | illegalOp
deriving DecidableEq, Repr

/-- What the packer puts out: the accept code of a command (R57), or the image of a send (R41). -/
inductive Output where
  | accept (code : AcceptCode)
  | send (img : List Byte)
deriving DecidableEq, Repr

/-- The block, and beside it what R29 says is a parameter of the step relation or the block's observable history.
`draws` is the model's own counter of resets, for the free draws of R28 (log 3). -/
structure State where
  params : Params
  blk    : Block
  events : List Event
  log    : List Output
  draws  : Nat
deriving DecidableEq, Repr

/-- Why the machine stops. -/
inductive Fault where
  /-- Raised by a store step that would read `P[i].data[j]` where 20_memory.md R31 defines no such byte. Safe: no
  state that meets the invariant raises it (log 9). -/
  | dataIndexOutOfRange (i : PacketId) (j : Nat)
deriving DecidableEq, Repr

/-- Why the model gives a step no meaning. -/
inductive Refusal where
  /-- For exec's arms of instructions without a meaning. No arm uses it. Safe. -/
  | notModelled (mnemonic : String)
  /-- Raised by every step of a machine whose `CAP` is outside 1..31: "A model refuses `CAP = 0` and `CAP >= 32`"
  (D17, U9). Safe (log 1). -/
  | illegalCapacity (cap : Nat)
deriving DecidableEq, Repr

/-- Packet `i` after reset number `n`: every field a free draw (R28). -/
def Packet.drawn (cap n : Nat) (i : PacketId) : Packet where
  vbc  := Config.resetVbc n i
  seq  := Config.resetPktSeq n i
  sid  := Config.resetPktSid n i
  data := (List.range cap).map (Config.resetData n i)

/-- The block after reset number `n` (R28, R130): `GUARD = FLUSHING`, `PH = IDLE`, all else unspecified. -/
def Block.drawn (cap n : Nat) : Block where
  seq   := Config.resetSeq n
  srcId := Config.resetSrcId n
  guard := .flushing
  p0    := Packet.drawn cap n .p0
  p1    := Packet.drawn cap n .p1
  acc   := Config.resetAcc n
  rem   := Config.resetRem n
  ph    := .idle
  opk   := Config.resetOpk n

/-- The machine right after reset (R28): the default capacity, no event waiting, nothing put out yet. -/
def State.reset : State where
  params := { cap := Config.defaultCap, srcIdOrder := Config.srcIdOrder }
  blk    := Block.drawn Config.defaultCap 0
  events := []
  log    := []
  draws  := 1

end Sys2Proof.Machine
end

