-- ==== Sys2Proof/Machine/Flags.lean ====
section
/-! DEFINITION. The flag `GUARD`, the status levels and the accept codes as bits (10_state.md R13, R22; 30_encoding.md R57). -/

namespace Sys2Proof.Machine

/-- The level `busy = (PH != IDLE)` (R22). -/
def Block.busy (b : Block) : Bool := b.ph != .idle

/-- The level `ready = (GUARD = READY)` (R22). -/
def Block.ready (b : Block) : Bool := b.guard == .ready

/-- The suggested 1-bit encoding of `GUARD`: READY = 1, FLUSHING = 0 (R13, D13). No rule depends on it. -/
def Guard.bit : Guard → BitVec 1
  | .ready => 1#1
  | .flushing => 0#1

/-- The 8-bit accept codes (R57). -/
def AcceptCode.bits : AcceptCode → Byte
  | .ok => 0x00#8
  | .dropped => 0x01#8
  | .invalidWidth => 0x02#8
  | .illegalOp => 0x03#8

end Sys2Proof.Machine
end

