-- ==== Sys2Proof/Machine/Operands.lean ====
section
/-! DEFINITION. The arithmetic of WRITE (41_write_data.md R76, R79, R89), all unsigned. -/

namespace Sys2Proof.Machine

/-- `trunc_32(value << (32 - width))`: `value[width-1]` lands in bit 31 (R76). Used with a legal width, shift 0..31. -/
def leftAlign (value : Value) (width : Byte) : Value := value <<< (32 - width.toNat)

/-- `REM <- width` (R76); exact for every legal width. -/
def remOfWidth (width : Byte) : Fin 33 := Fin.ofNat 33 width.toNat

/-- `byte = vbc div 8` (R79). -/
def byteIndex (vbc : Byte) : Nat := vbc.toNat / 8

/-- `off = vbc mod 8` (R79). -/
def bitOffset (vbc : Byte) : Nat := vbc.toNat % 8

/-- `n = min(8 - off, REM)` (R79). -/
def chunkLen (vbc : Byte) (rem : Fin 33) : Nat := min (8 - bitOffset vbc) rem.val

/-- `chunk = ACC[31 : 32-n]`, the top `n` bits of the accumulator (R79), `1 <= n <= 8`. -/
def chunk (acc : Value) (n : Nat) : Byte := (acc >>> (32 - n)).setWidth 8

/-- `old OR (chunk << (8 - off - n))` (R79, D27: OR is normative). -/
def orChunk (old : Byte) (acc : Value) (off n : Nat) : Byte := old ||| (chunk acc n <<< (8 - off - n))

/-- `trunc_32(ACC << n)` (R79). -/
def advanceAcc (acc : Value) (n : Nat) : Value := acc <<< n

/-- `REM - n` with `n <= REM` (R79, R89). -/
def advanceRem (rem : Fin 33) (n : Nat) : Fin 33 := Fin.ofNat 33 (rem.val - n)

/-- `vbc + n` (R79, R89). -/
def advanceVbc (vbc : Byte) (n : Nat) : Byte := vbc + BitVec.ofNat 8 n

end Sys2Proof.Machine
end

