-- ==== Sys2Proof/Machine/Ops.lean ====
section
/-! DEFINITION. The named operations every meaning is built from: the data array (20_memory.md R31, R33), the two packets
(10_state.md R15, R16), the wire image (R36, R37), preparation and rotation (R38, R39), sending (R41), answering a command
(30_encoding.md R57). The packer takes no exception and returns from none (60_exceptions.md R113, R118, R119): what stands in
their place is `reject`, an accept code and no state change. -/

namespace Sys2Proof

/-- The other packet instance: `1 - i`. -/
def PacketId.other : PacketId → PacketId
  | .p0 => .p1
  | .p1 => .p0

/-- `n mod 2` as a packet instance (R16). -/
def PacketId.ofParity (n : Nat) : PacketId := if n % 2 = 0 then .p0 else .p1

end Sys2Proof

namespace Sys2Proof.Machine

/-- The answer of a step of this machine. -/
abbrev Result := Host.Outcome State Fault Refusal

/-! ### The data array -/

/-- The array has exactly `CAP` bytes. -/
def Memory.wf (cap : Nat) (m : Memory) : Bool := m.length == cap

/-- `DataRead(i, j)`: defined only for `j < CAP` (R31). -/
def Memory.read (cap : Nat) (m : Memory) (j : Nat) : Option Byte := if j < cap then m[j]? else none

/-- `DataWrite(i, j, v)`: one byte (R31). -/
def Memory.write (m : Memory) (j : Nat) (v : Byte) : Memory := m.set j v

/-- `CAP` bytes of 0x00, what preparation leaves (R38). -/
def Memory.zeroed (cap : Nat) : Memory := List.replicate cap 0#8

/-- Data bit position `p`: bit `7 - (p mod 8)` of byte `p div 8` (R33). -/
def Packet.bit (p : Packet) (pos : Nat) : Bool := (p.data[pos / 8]?.getD 0#8).getLsbD (7 - pos % 8)

/-! ### The two packets -/

/-- `ACT = SEQ mod 2` (R16). -/
def Block.act (b : Block) : PacketId := PacketId.ofParity b.seq.toNat

/-- `P[i]`. -/
def Block.pkt (b : Block) : PacketId → Packet
  | .p0 => b.p0
  | .p1 => b.p1

/-- `P[i] <- p`. -/
def Block.setPkt (b : Block) (i : PacketId) (p : Packet) : Block :=
  match i with
  | .p0 => { b with p0 := p }
  | .p1 => { b with p1 := p }

/-- The active packet `P[ACT]` (R9, R16). -/
def Block.active (b : Block) : Packet := b.pkt b.act

/-! ### The wire image -/

/-- `sidbytes(s)`, by the order the parameter gives (R37). -/
def sidBytes (order : SrcIdOrder) (s : SourceId) : List Byte :=
  match order with
  | .msbFirst => [s.extractLsb' 8 8, s.extractLsb' 0 8]
  | .lsbFirst => [s.extractLsb' 0 8, s.extractLsb' 8 8]

/-- `image(i)` of the packet `P[i]` (R36): `vbc`, `seq`, the two `sid` bytes, all `CAP` data bytes. -/
def image (ps : Params) (p : Packet) : List Byte := [p.vbc, p.seq] ++ sidBytes ps.srcIdOrder p.sid ++ p.data

/-! ### Preparation and rotation -/

/-- `prepare(i)` (R38): all data zeroed, `vbc <- 0`, `seq <- SEQ`, `sid <- SRC_ID`. -/
def prepare (cap : Nat) (i : PacketId) (b : Block) : Block :=
  b.setPkt i { vbc := 0#8, seq := b.seq, sid := b.srcId, data := Memory.zeroed cap }

/-- `SEQ <- (SEQ + 1) mod 256` (R39). -/
def bumpSeq (b : Block) : Block := { b with seq := b.seq + 1#8 }

/-- `rotate()` (R39): the counter first, then the new active packet is prepared. -/
def rotate (cap : Nat) (b : Block) : Block := prepare cap (bumpSeq b).act (bumpSeq b)

/-! ### Outputs -/

/-- Put one output at the end of the history. -/
def State.put (o : Output) (s : State) : State := { s with log := s.log ++ [o] }

/-- `emit send(image(ACT))`: the `LEN` bytes by value, sampled in this step (R41, D15). -/
def emitSend (s : State) : State := s.put (.send (image s.params s.blk.active))

/-- `emit send(image(ACT)); OPK <- k; PH <- SEND_WAIT`, the shared part of FLUSH and FLUSH.R (R90, R91). -/
def startFlush (k : Opk) (s : State) : State :=
  let s' := emitSend s
  { s' with blk := { s'.blk with opk := k, ph := .sendWait } }

/-- `reject(code)`: the command ends with no state change and this accept code (R8, R98). -/
def reject (code : AcceptCode) (s : State) : Result := .next (s.put (.accept code))

/-- The command is accepted: its effect has happened, and the accept code is `OK` (R98 check 5). -/
def acceptOk (s : State) : Result := .next (s.put (.accept .ok))

/-- Check 2 of R98: while `PH != IDLE` any command is dropped (R99); otherwise it goes on. -/
def whenIdle (s : State) (go : Result) : Result := if s.blk.busy then reject .dropped s else go

end Sys2Proof.Machine
end

