-- ==== Sys2Proof/Machine/Flush.lean ====
section
/-! DEFINITION. FLUSH and FLUSH.R (42_flush.md R90 to R95). Both are accepted whatever `GUARD` holds (R93); what follows the
collaborator's return is `sendRet`. -/

namespace Sys2Proof.Machine

/-- FLUSH (R90): send the active packet's image and wait. -/
def execFlush (s : State) : Result := whenIdle s (acceptOk (startFlush .flush s))

/-- FLUSH.R (R91): send the active packet's image and wait; the return rotates. -/
def execFlushR (s : State) : Result := whenIdle s (acceptOk (startFlush .flushR s))

end Sys2Proof.Machine
end

