-- ==== Sys2Proof/Machine/Init.lean ====
section
/-! DEFINITION. INIT (40_init.md R70 to R72). -/

namespace Sys2Proof.Machine

/-- INIT's effect (R70): `SRC_ID <- sid; SEQ <- 0; prepare(0); GUARD <- READY`. A second INIT does the same (R72). -/
def initBlock (cap : Nat) (sid : SourceId) (b : Block) : Block :=
  { prepare cap .p0 { b with srcId := sid, seq := 0#8 } with guard := .ready }

/-- INIT (R70): dropped while busy, not gated by `GUARD`, complete in this one step. -/
def execInit (sid : SourceId) (s : State) : Result :=
  whenIdle s (acceptOk { s with blk := initBlock s.params.cap sid s.blk })

end Sys2Proof.Machine
end

