-- ==== Sys2Proof/Machine/Write.lean ====
section
/-! DEFINITION. WRITE: its acceptance (41_write_data.md R75, R76) and the engine step that carries it on (R77 to R80). -/

namespace Sys2Proof.Machine

/-- The effect of accepting a legal WRITE (R76). -/
def acceptWriteBlock (value : Value) (width : Byte) (b : Block) : Block :=
  { b with guard := .flushing, acc := leftAlign value width, rem := remOfWidth width, opk := .write, ph := .run }

/-- WRITE presented to the command port: busy, then `GUARD`, then the width, then R76 (R98 checks 2 to 5). What an
accepted WRITE does after this step is `engineStep`. -/
def execWrite (value : Value) (width : Byte) (s : State) : Result :=
  whenIdle s <|
    if s.blk.guard ≠ .ready then reject .dropped s
    else if ¬ legalWidth width then reject .invalidWidth s
    else acceptOk { s with blk := acceptWriteBlock value width s.blk }

/-- Finish (R80): `GUARD <- READY; PH <- IDLE`. `ACC`, `REM`, `OPK` keep their values (U7, log 13). -/
def finishWrite (s : State) : Result := .next { s with blk := { s.blk with guard := .ready, ph := .idle } }

/-- Overflow path, first half (R78): send the full packet and wait. -/
def overflowSend (s : State) : Result :=
  let s' := emitSend s
  .next { s' with blk := { s'.blk with ph := .sendWait } }

/-- The active packet after a store of `n` bits into the byte `old` read at its position (R79). -/
def storePacket (p : Packet) (old : Byte) (acc : Value) (n : Nat) : Packet :=
  { p with vbc := advanceVbc p.vbc n,
           data := Memory.write p.data (byteIndex p.vbc) (orChunk old acc (bitOffset p.vbc) n) }

/-- Store step (R79), one chunk into one byte of the active packet. A byte R31 does not define is a fault (log 9). -/
def storeChunk (s : State) : Result :=
  let b := s.blk
  let p := b.active
  let n := chunkLen p.vbc b.rem
  match Memory.read s.params.cap p.data (byteIndex p.vbc) with
  | none => .fault (.dataIndexOutOfRange b.act (byteIndex p.vbc))
  | some old =>
    .next { s with blk := { b.setPkt b.act (storePacket p old b.acc n) with
                              acc := advanceAcc b.acc n, rem := advanceRem b.rem n } }

/-- The engine's step at `PH = RUN`, one of three in R77's order. The full test is equality, as R77 writes it. -/
def engineStep (s : State) : Result :=
  if s.blk.rem.val = 0 then finishWrite s
  else if s.blk.active.vbc.toNat = s.params.capBits then overflowSend s
  else storeChunk s

end Sys2Proof.Machine
end

