-- ==== Sys2Proof/Machine/Dispatch.lean ====
section
/-! DEFINITION. One arm per command: what presenting it to the command port does (43_guard_and_sequencer.md R98). -/

namespace Sys2Proof.Machine

def exec (i : Instr) (s : State) : Host.Outcome State Fault Refusal :=
  match i with
  | .init sid => Sys2Proof.Machine.execInit sid s
  | .write value width => Sys2Proof.Machine.execWrite value width s
  | .flush => Sys2Proof.Machine.execFlush s
  | .flushR => Sys2Proof.Machine.execFlushR s

end Sys2Proof.Machine
end

