-- ==== Sys2Proof/Machine/Sequencer.lean ====
section
/-! DEFINITION. What each kind of event does (43_guard_and_sequencer.md R98, R104 to R107; 70_reset_and_hazards.md R130), and
what happens when none is waiting. -/

namespace Sys2Proof.Machine

/-- A `cmd(w)` event: check 1 of R98 on the word, then the command itself. -/
def takeCmd (w : CmdWord) (s : State) : Result :=
  match decode w with
  | .illegalOp _ => reject .illegalOp s
  | .instr i => exec i s

/-- A `tick` event, enabled when `PH = RUN` (R98). An entry of the schedule that is not enabled when its turn comes is
skipped (DESIGN CHOICE, log 7). -/
def takeTick (s : State) : Result := if s.blk.ph = .run then engineStep s else .next s

/-- What the collaborator's return does to the block, by the command in progress (R106). -/
def sendRetBlock (cap : Nat) (b : Block) : Block :=
  match b.opk with
  | .write => { rotate cap b with ph := .run }
  | .flush => { b with ph := .idle }
  | .flushR => { rotate cap b with ph := .idle }

/-- A `send_ret(st)` event: effective only at `PH = SEND_WAIT` (R106), else spurious and ignored (R107). The status byte
is discarded (D14). -/
def takeSendRet (_status : Byte) (s : State) : Result :=
  if s.blk.ph = .sendWait then .next { s with blk := sendRetBlock s.params.cap s.blk } else .next s

/-- A `reset` event (R130): every element at its reset value, by the next free draw. It sends nothing. -/
def takeReset (s : State) : Result := .next { s with blk := Block.drawn s.params.cap s.draws, draws := s.draws + 1 }

/-- One event, already taken from the schedule. -/
def takeEvent (e : Event) (s : State) : Result :=
  match e with
  | .reset => takeReset s
  | .cmd w => takeCmd w s
  | .tick => takeTick s
  | .sendRet status => takeSendRet status s

/-- No event is waiting: at `PH = RUN` the engine goes on by itself (R104, D21, log 6); at `PH = IDLE` the packer "simply
waits for the next command with all state retained" (R122); at `PH = SEND_WAIT` "the engine has no step of its own" (R104). -/
def takeNothing (s : State) : Result := takeTick s

/-- The schedule's next event, or none. -/
def takeNext (s : State) : Result :=
  match s.events with
  | [] => takeNothing s
  | e :: es => takeEvent e { s with events := es }

/-- A machine whose `CAP` is outside 1..31 is refused (D17, U9, log 1). -/
def guardedNext (s : State) : Result :=
  if s.params.legal then takeNext s else .refused (.illegalCapacity s.params.cap)

/-- The host presents the command word as the very next event. -/
def present (w : CmdWord) (s : State) : State := { s with events := .cmd w :: s.events }

/-- Two events a platform delivers together: `reset` wins; any other pair never coincides (R117). -/
def Event.together (a b : Event) : Option Event := if a = .reset ∨ b = .reset then some .reset else none

end Sys2Proof.Machine
end

