-- ==== Sys2Proof/Machine/Step.lean ====
section
/-! DEFINITION. One step of the machine: one event (43_guard_and_sequencer.md R98). -/

namespace Sys2Proof.Machine

/-- One step: the next event of the schedule is taken. -/
def step (s : State) : Host.Outcome State Fault Refusal := guardedNext s

/-- The state in which the very next event is the command word `w` of the opcode table's numbering (log 16). -/
def State.withFetchWord (s : State) (nbits w : Nat) : State := present (tableWord nbits w) s

end Sys2Proof.Machine
end

