-- ==== Sys2Proof/Machine/Script.lean ====
section
/-! DEFINITION. The lines of the spec's test programs (30_encoding.md R61): four commands, and two lines that script the
environment and have no encoding. -/

namespace Sys2Proof.Machine

/-- One line of a program (R61). -/
inductive Line where
  | cmd (i : Instr)
  /-- `ret <status>`: the send collaborator returns. -/
  | ret (status : Byte)
  /-- `run`: the engine takes steps until `busy` falls or it waits for a `ret`. -/
  | run
deriving DecidableEq, Repr

/-- The engine steps one `run` can need: at most `ceil(32/8) + 1` stores and the finish (R152). -/
def runTicks : Nat := 6

/-- The events a line stands for. Ticks left over when the engine is no longer at `PH = RUN` change nothing (log 7). -/
def Line.events : Line → List Event
  | .cmd i => [.cmd (encode i)]
  | .ret status => [.sendRet status]
  | .run => List.replicate runTicks .tick

/-- The events of a program, in order. -/
def scriptEvents (lines : List Line) : List Event := lines.flatMap Line.events

/-- A line as R61 writes it, numbers in decimal. -/
def Line.text : Line → String
  | .cmd (.init sid) => "init " ++ toString sid.toNat
  | .cmd (.write value width) => "write " ++ toString value.toNat ++ ", " ++ toString width.toNat
  | .cmd .flush => "flush"
  | .cmd .flushR => "flush.r"
  | .ret status => "ret " ++ toString status.toNat
  | .run => "run"

end Sys2Proof.Machine
end

