-- ==== Sys2Proof/Machine/BitSerial.lean ====
section
/-! DEFINITION. The derived forms of WRITE: bit by bit (41_write_data.md R81) and as one big step (R82). The machine runs
`engineStep`; these are the spec's other account of the same command. -/

namespace Sys2Proof.Machine

/-- Set data bit position `pos` of a packet (R33, R81). -/
def Packet.setBit (p : Packet) (pos : Nat) (v : Bool) : Packet :=
  let old := p.data[pos / 8]?.getD 0#8
  let mask := (1#8 : Byte) <<< (7 - pos % 8)
  { p with data := Memory.write p.data (pos / 8) (if v then old ||| mask else old &&& ~~~mask) }

/-- If the active packet is full: it is sent, the collaborator returns, and the packets rotate (R81). -/
def flushIfFull (ps : Params) (x : Block × List (List Byte)) : Block × List (List Byte) :=
  if x.1.active.vbc.toNat = ps.capBits then (rotate ps.cap x.1, x.2 ++ [image ps x.1.active]) else x

/-- The active packet takes one more bit, at position `vbc` (R81). -/
def pushBit (v : Bool) (b : Block) : Block :=
  b.setPkt b.act { b.active.setBit b.active.vbc.toNat v with vbc := b.active.vbc + 1#8 }

/-- One iteration of R81's loop, on a block and the images sent so far. -/
def appendBit (ps : Params) (v : Bool) (x : Block × List (List Byte)) : Block × List (List Byte) :=
  (pushBit v (flushIfFull ps x).1, (flushIfFull ps x).2)

/-- R81's loop, `for k = w-1 downto 0`, over the low `w` bits of a value. -/
def appendBits (ps : Params) (value : Value) : Nat → Block × List (List Byte) → Block × List (List Byte)
  | 0, x => x
  | k + 1, x => appendBits ps value k (appendBit ps (value.getLsbD k) x)

/-- `write_big(S, value, width) = (S', sends)` (R82). -/
def writeBig (ps : Params) (b : Block) (value : Value) (width : Byte) : Block × List (List Byte) :=
  appendBits ps value width.toNat (b, [])

/-- Several WRITEs, each run to completion before the next, and all the images they send. -/
def writeAll (ps : Params) : List (Value × Byte) → Block → Block × List (List Byte)
  | [], b => (b, [])
  | (value, width) :: rest, b =>
    ((writeAll ps rest (writeBig ps b value width).1).1,
      (writeBig ps b value width).2 ++ (writeAll ps rest (writeBig ps b value width).1).2)

end Sys2Proof.Machine
end

