-- ==== Sys2Proof/Safety.lean ====
section
/-! DEFINITION. What the claims are stated in: runs, the observable history, the bits a packet carries, and the invariant that
holds from reset on (10_state.md R23 to R26). -/

namespace Sys2Proof.Machine

/-- `k` steps, stopping at a fault or a refusal. -/
def runSteps : Nat → State → Result
  | 0, s => .next s
  | k + 1, s =>
    match step s with
    | .next s' => runSteps k s'
    | .fault r => .fault r
    | .refused r => .refused r

/-! ### The observable history -/

/-- The image of a send, if the output is one. -/
def Output.sent : Output → Option (List Byte)
  | .send img => some img
  | .accept _ => none

/-- The accept code, if the output is one. -/
def Output.code : Output → Option AcceptCode
  | .send _ => none
  | .accept c => some c

/-- The images sent, oldest first. -/
def sends (log : List Output) : List (List Byte) := log.filterMap Output.sent

/-- The accept codes given, oldest first. -/
def accepts (log : List Output) : List AcceptCode := log.filterMap Output.code

/-! ### Bit strings (R34, R85) -/

/-- The low `w` bits of a value, most significant first (R34). -/
def valueBits (value : Value) (w : Nat) : List Bool := (List.range w).map fun k => value.getLsbD (w - 1 - k)

/-- A packet's first `vbc` data bit positions (R34). -/
def packetBits (p : Packet) : List Bool := (List.range p.vbc.toNat).map p.bit

/-- The meaningful bits of a wire image: its byte 0 says how many (R36). -/
def imageBits (img : List Byte) : List Bool :=
  (List.range (img[0]?.getD 0#8).toNat).map fun pos => (img[4 + pos / 8]?.getD 0#8).getLsbD (7 - pos % 8)

/-- The bits a list of WRITEs asks for, in call order (R85). -/
def writtenBits (ws : List (Value × Byte)) : List Bool := ws.flatMap fun x => valueBits x.1 x.2.toNat

/-- The total of the widths (R84). -/
def totalWidth (ws : List (Value × Byte)) : Nat := (ws.map fun x => x.2.toNat).sum

/-- Every WRITE of the list is legal (R75). -/
abbrev LegalWrites (ws : List (Value × Byte)) : Prop := ∀ x ∈ ws, legalWidth x.2

/-- `ceil(a / b)`. -/
def ceilDiv (a b : Nat) : Nat := (a + b - 1) / b

/-! ### The invariant -/

/-- A WRITE is in progress (R17, R26). -/
abbrev Block.Writing (b : Block) : Prop := b.ph ≠ .idle ∧ b.opk = .write

/-- By R26, exactly the states in which an INIT has executed since reset, as far as `GUARD` and the sequencer show it. -/
abbrev Block.Initialised (b : Block) : Prop := b.guard = .ready ∨ b.Writing

/-- Both data arrays hold `CAP` bytes (R14). -/
abbrev DataSized (ps : Params) (b : Block) : Prop := b.p0.data.length = ps.cap ∧ b.p1.data.length = ps.cap

/-- A packet whose `vbc` is at most `CAPBITS` and whose bit positions from `vbc` up are 0 (R23, R24). -/
abbrev Packet.Clean (ps : Params) (p : Packet) : Prop :=
  p.vbc.toNat ≤ ps.capBits ∧ ∀ pos, pos < ps.capBits → p.vbc.toNat ≤ pos → p.bit pos = false

/-- The prepared-active facts of R24. -/
abbrev PreparedActive (ps : Params) (b : Block) : Prop :=
  b.active.seq = b.seq ∧ b.active.sid = b.srcId ∧ b.active.Clean ps

/-- `PH = RUN` only in a WRITE (R20), and `GUARD = FLUSHING` for the whole of a WRITE (R13, R26). -/
abbrev SequencerOk (b : Block) : Prop :=
  (b.ph = .run → b.opk = .write) ∧ (b.Writing → b.guard = .flushing)

/-- `ACC` holds the `REM` bits still to be written, left-aligned, and nothing below them (R17). -/
abbrev AccAligned (b : Block) : Prop := ∀ k, k < 32 → k + b.rem.val < 32 → b.acc.getLsbD k = false

/-- The invariant on the block: R14, R20, R23, R24, R26, R17, and R78's condition while an overflow send is outstanding. -/
abbrev BlockInv (ps : Params) (b : Block) : Prop :=
  DataSized ps b ∧ SequencerOk b ∧ (b.Initialised → PreparedActive ps b) ∧ (b.Writing → AccAligned b) ∧
    (b.ph = .sendWait → b.opk = .write → b.active.vbc.toNat = ps.capBits ∧ 0 < b.rem.val)

/-- The invariant every step keeps. -/
abbrev PackerInv (s : State) : Prop := s.params.legal ∧ BlockInv s.params s.blk

/-! ### Histories -/

/-- The schedule holds no reset. -/
abbrev NoReset (es : List Event) : Prop := ∀ e ∈ es, e ≠ .reset

/-- The schedule holds neither a reset nor a return of the collaborator. -/
abbrev NoReturn (es : List Event) : Prop := ∀ e ∈ es, e ≠ .reset ∧ ∀ st, e ≠ .sendRet st

/-- The event with its status byte, if it has one, replaced by 0. -/
def Event.plainStatus : Event → Event
  | .sendRet _ => .sendRet 0#8
  | e => e

/-- The state with every status byte still to come replaced by 0. -/
def State.plainStatus (s : State) : State := { s with events := s.events.map Event.plainStatus }

/-- The answer of a run, with every status byte still to come replaced by 0. -/
def Result.plainStatus : Result → Result
  | .next t => .next t.plainStatus
  | .fault r => .fault r
  | .refused r => .refused r

/-- A run of `k + 1` steps, the first of which presents a legal WRITE that is accepted, and at the end of which the packer is
at `PH = IDLE` for the first time since: the WRITE run to completion under whatever else the schedule holds but a reset. -/
def WriteRunsToCompletion (s t : State) (value : Value) (width : Byte) : Prop :=
  PackerInv s ∧ s.blk.ph = .idle ∧ s.blk.guard = .ready ∧ legalWidth width ∧
  (∃ es, s.events = .cmd (encode (.write value width)) :: es ∧ NoReset es) ∧
  ∃ k, runSteps (k + 1) s = .next t ∧ t.blk.ph = .idle ∧
    ∀ j u, 0 < j → j ≤ k → runSteps j s = .next u → u.blk.ph ≠ .idle

/-- Whether an INIT has executed since the last reset, after the event `step` takes next; `before` is the answer before it. -/
def initAfter (s : State) (before : Bool) : Bool :=
  match s.events with
  | .reset :: _ => false
  | .cmd w :: _ =>
    match decode w with
    | .instr (.init _) => if s.blk.ph = .idle then true else before
    | _ => before
  | _ => before

/-- The same over `k` steps. -/
def initSince : Nat → State → Bool → Bool
  | 0, _, before => before
  | k + 1, s, before =>
    match step s with
    | .next s' => initSince k s' (initAfter s before)
    | _ => initAfter s before

/-- What `GUARD` says (R26), as an invariant of one step; `initialised` is whether an INIT has executed since the last reset.
`GUARD = FLUSHING` exactly when none has or a WRITE is in progress; a WRITE is in progress only after an INIT, and `PH = RUN`
only in a WRITE. -/
abbrev GuardTells (s : State) (initialised : Bool) : Prop :=
  (s.blk.guard = .flushing ↔ initialised = false ∨ s.blk.Writing) ∧
  (s.blk.Writing → initialised = true) ∧ (s.blk.ph = .run → s.blk.opk = .write)

end Sys2Proof.Machine
end

