-- ==== Sys2Proof/Certificates/Slice0/Obligations.lean ====
section
/-! DEFINITION. The statements for the provers. Each docstring names the rules of spec/ it formalises, and where a clause rests
on a choice of the model it names the log entry. -/

open Sys2Proof Sys2Proof.Machine

/-! ### Encoding -/

/-- Words written out from R52's table and the vectors V0, V1, V5, V19 decode to the commands they stand for. -/
def Obligations.SpecWordsDecode : Prop :=
  decode 0x010000001234#48 = .instr (.init 0x1234#16) ∧
  decode 0x020C00000ABC#48 = .instr (.write 0xABC#32 12#8) ∧
  decode 0x0220DEADBEEF#48 = .instr (.write 0xDEADBEEF#32 32#8) ∧
  decode 0x030000000000#48 = .instr .flush ∧
  decode 0x040000000000#48 = .instr .flushR ∧
  decode 0x000000000000#48 = .illegalOp 0x00#8 ∧
  decode 0x050000000000#48 = .illegalOp 0x05#8 ∧
  decode 0xFFFFFFFFFFFF#48 = .illegalOp 0xFF#8

/-- Decoding an encoded command gives it back, every operand at every value (R50, R52, R53). -/
def Obligations.DecodeOfEncodeIsTheCommand : Prop := ∀ i : Instr, decode (encode i) = .instr i

/-- A word that decodes to a command is that command's encoding on the bits the command uses, and any word that agrees with it
on those bits decodes to the same command: the ignored fields are don't-care (R53, R54). -/
def Obligations.DecodedWordIsEncodingOnUsedBits : Prop :=
  ∀ (w : CmdWord) (i : Instr), decode w = .instr i →
    w &&& i.usedBits = encode i ∧ ∀ w', w' &&& i.usedBits = encode i → decode w' = .instr i

/-- R55: a word whose `op` is 0x00 or 0x05..0xFF is answered `ILLEGAL_OP` and changes no state, in every phase and whatever
`GUARD` holds; the all-zero word is one of them. -/
def Obligations.ReservedOpIsIllegalAndChangesNothing : Prop :=
  (∀ (s : State) (w : CmdWord) (es : List Event), s.params.legal → s.events = .cmd w :: es →
    ((w.extractLsb' 40 8).toNat = 0 ∨ 5 ≤ (w.extractLsb' 40 8).toNat) →
    step s = .next { s with events := es, log := s.log ++ [.accept .illegalOp] }) ∧
  (∀ (s : State) (es : List Event), s.params.legal → s.events = .cmd 0#48 :: es →
    step s = .next { s with events := es, log := s.log ++ [.accept .illegalOp] })

/-! ### The step -/

/-- When the next event presents a word that decodes to `i`, the step is `exec i`, in the state with the event taken off the
schedule (R98). The second clause says the same of a word placed by `withFetchWord`: that this stands for a presentation, and
that the very next step takes it, is the model's choice (log 16), no rule of the spec. -/
def Obligations.StepRunsThePresentedCommand : Prop :=
  (∀ (s : State) (w : CmdWord) (es : List Event) (i : Instr), s.params.legal → s.events = .cmd w :: es →
    decode w = .instr i → step s = exec i { s with events := es }) ∧
  (∀ (s : State) (nbits w : Nat) (i : Instr), s.params.legal → decodeTableWord nbits w = some i →
    step (s.withFetchWord nbits w) = exec i s)

/-- What a step does when the schedule's next entry is a tick, or when it is empty: at `PH = RUN` one engine step, else nothing
(R98, R104). That an entry not enabled is skipped (log 7), that the engine goes on by itself on an empty schedule (log 6) and
that an illegal capacity is refused (log 1) are the model's choices. -/
def Obligations.EngineStepsWhenRunning : Prop :=
  ∀ s : State,
    (s.params.legal → s.blk.ph = .run → s.events = [] → step s = engineStep s) ∧
    (s.params.legal → s.blk.ph ≠ .run → s.events = [] → step s = .next s) ∧
    (∀ es, s.params.legal → s.blk.ph = .run → s.events = .tick :: es → step s = engineStep { s with events := es }) ∧
    (∀ es, s.params.legal → s.blk.ph ≠ .run → s.events = .tick :: es → step s = .next { s with events := es }) ∧
    (¬ s.params.legal → step s = .refused (.illegalCapacity s.params.cap))

/-! ### Rejections -/

/-- R99: a legal command that arrives while `PH != IDLE` is dropped, whatever the command is and whatever `GUARD` holds. -/
def Obligations.BusyCommandIsDropped : Prop :=
  ∀ (i : Instr) (s : State), s.blk.ph ≠ .idle →
    exec i s = .next { s with log := s.log ++ [.accept .dropped] }

/-- R86: a WRITE that arrives while the packer is busy or not ready is dropped whole: no state changes, nothing is sent,
nothing is queued. -/
def Obligations.DroppedWriteWritesNothing : Prop :=
  ∀ (value : Value) (width : Byte) (s : State), s.blk.ph ≠ .idle ∨ s.blk.guard ≠ .ready →
    exec (.write value width) s = .next { s with log := s.log ++ [.accept .dropped] }

/-- A WRITE presented to an idle, ready packer with a width outside 1..32 answers `INVALID_WIDTH` and changes nothing. -/
def Obligations.IllegalWidthIsRejected : Prop :=
  ∀ (value : Value) (width : Byte) (s : State), s.blk.ph = .idle → s.blk.guard = .ready →
    width.toNat = 0 ∨ 33 ≤ width.toNat →
    exec (.write value width) s = .next { s with log := s.log ++ [.accept .invalidWidth] }

/-- The four checks of R98 in their order decide the accept code of every word in every state; every word is answered in the
step that takes it, with exactly one code (R101); a code other than `OK` changes nothing and sends nothing. -/
def Obligations.AcceptCodeFollowsTheCheckOrder : Prop :=
  ∀ (s : State) (w : CmdWord) (es : List Event), s.params.legal → s.events = .cmd w :: es →
    let op := (w.extractLsb' 40 8).toNat
    let width := (w.extractLsb' 32 8).toNat
    let code : AcceptCode :=
      if op = 0 ∨ 5 ≤ op then .illegalOp
      else if s.blk.ph ≠ .idle then .dropped
      else if op = 2 ∧ s.blk.guard ≠ .ready then .dropped
      else if op = 2 ∧ (width = 0 ∨ 33 ≤ width) then .invalidWidth
      else .ok
    ∃ t outs, step s = .next t ∧ t.events = es ∧ t.log = s.log ++ outs ++ [.accept code] ∧ accepts outs = [] ∧
      (code ≠ .ok → t.blk = s.blk ∧ outs = [])

/-! ### INIT -/

/-- R70, the whole command. Every word with `op` 0x01 is an INIT of its low 16 bits. At `PH = IDLE`, whatever `GUARD` holds and
however often it has run before (R72), it completes in one step: the identifier stored, `SEQ` 0, packet 0 empty, `GUARD = READY`;
packet 1, `ACC`, `REM`, `OPK`, `PH` unchanged; no send. While busy it is dropped. -/
def Obligations.InitPreparesPacketZero : Prop :=
  (∀ w : CmdWord, w.extractLsb' 40 8 = 0x01#8 → decode w = .instr (.init (w.extractLsb' 0 16))) ∧
  (∀ (sid : SourceId) (s : State), s.blk.ph = .idle →
    ∃ t, exec (.init sid) s = .next t ∧
      t.blk.srcId = sid ∧ t.blk.seq = 0#8 ∧ t.blk.guard = .ready ∧ t.blk.ready = true ∧ t.blk.ph = .idle ∧ t.blk.act = .p0 ∧
      t.blk.p0.vbc = 0#8 ∧ t.blk.p0.seq = 0#8 ∧ t.blk.p0.sid = sid ∧ t.blk.p0.data.length = s.params.cap ∧
      (∀ j, j < s.params.cap → Memory.read s.params.cap t.blk.p0.data j = some 0#8) ∧
      t.blk.p1 = s.blk.p1 ∧ t.blk.acc = s.blk.acc ∧ t.blk.rem = s.blk.rem ∧ t.blk.opk = s.blk.opk ∧
      t.params = s.params ∧ t.events = s.events ∧ t.draws = s.draws ∧ t.log = s.log ++ [.accept .ok]) ∧
  (∀ (sid : SourceId) (s : State), s.blk.ph ≠ .idle →
    exec (.init sid) s = .next { s with log := s.log ++ [.accept .dropped] })

/-! ### WRITE, step by step -/

/-- R76: the acceptance of a legal WRITE. `ACC` holds the low `width` bits left-aligned, `value[width-1]` in bit 31 and zeros
below them; the bits of `value` at and above `width` have no effect; no packet changes. -/
def Obligations.WriteAcceptanceLoadsTheValue : Prop :=
  ∀ (value : Value) (width : Byte) (s : State), s.blk.ph = .idle → s.blk.guard = .ready →
    1 ≤ width.toNat → width.toNat ≤ 32 →
    ∃ t, exec (.write value width) s = .next t ∧
      t.blk.guard = .flushing ∧ t.blk.acc = value <<< (32 - width.toNat) ∧ t.blk.rem.val = width.toNat ∧
      t.blk.opk = .write ∧ t.blk.ph = .run ∧
      (∀ k, k < width.toNat → t.blk.acc.getLsbD (31 - k) = value.getLsbD (width.toNat - 1 - k)) ∧
      (∀ k, k + width.toNat < 32 → t.blk.acc.getLsbD k = false) ∧
      (∀ value' : Value, (∀ k, k < width.toNat → value'.getLsbD k = value.getLsbD k) →
        exec (.write value' width) s = .next t) ∧
      t.blk.seq = s.blk.seq ∧ t.blk.srcId = s.blk.srcId ∧ t.blk.p0 = s.blk.p0 ∧ t.blk.p1 = s.blk.p1 ∧
      t.params = s.params ∧ t.events = s.events ∧ t.draws = s.draws ∧ t.log = s.log ++ [.accept .ok]

/-- R79: a store step. One chunk of `n = min(8 - off, REM)` bits goes into one byte of the active packet by OR; every other
byte, the other packet and every other register are unchanged; bit by bit, data bit positions `vbc .. vbc+n-1` take the top bits
of `ACC` (an assignment where they were 0), the others keep theirs. -/
def Obligations.StoreStepOrsOneChunk : Prop :=
  ∀ (s : State) (es : List Event), s.params.legal → DataSized s.params s.blk → s.events = .tick :: es →
    s.blk.ph = .run → 0 < s.blk.rem.val → s.blk.active.vbc.toNat < s.params.capBits →
    let a := s.blk.act
    let p := s.blk.active
    let byte := p.vbc.toNat / 8
    let off := p.vbc.toNat % 8
    let n := min (8 - off) s.blk.rem.val
    ∃ t old, step s = .next t ∧ Memory.read s.params.cap p.data byte = some old ∧
      Memory.read s.params.cap (t.blk.pkt a).data byte =
        some (old ||| ((s.blk.acc >>> (32 - n)).setWidth 8 <<< (8 - off - n))) ∧
      (∀ j, j ≠ byte → Memory.read s.params.cap (t.blk.pkt a).data j = Memory.read s.params.cap p.data j) ∧
      (t.blk.pkt a).data.length = p.data.length ∧
      (t.blk.pkt a).vbc.toNat = p.vbc.toNat + n ∧ (t.blk.pkt a).seq = p.seq ∧ (t.blk.pkt a).sid = p.sid ∧
      (∀ pos, pos < s.params.capBits → (t.blk.pkt a).bit pos =
        if p.vbc.toNat ≤ pos ∧ pos < p.vbc.toNat + n then
          (p.bit pos || s.blk.acc.getLsbD (31 - (pos - p.vbc.toNat))) else p.bit pos) ∧
      (p.Clean s.params → ∀ k, k < n → (t.blk.pkt a).bit (p.vbc.toNat + k) = s.blk.acc.getLsbD (31 - k)) ∧
      t.blk.acc = s.blk.acc <<< n ∧ t.blk.rem.val = s.blk.rem.val - n ∧
      t.blk.pkt a.other = s.blk.pkt a.other ∧ t.blk.seq = s.blk.seq ∧ t.blk.srcId = s.blk.srcId ∧
      t.blk.guard = s.blk.guard ∧ t.blk.ph = .run ∧ t.blk.opk = s.blk.opk ∧
      t.params = s.params ∧ t.events = es ∧ t.draws = s.draws ∧ t.log = s.log

/-- R80: a tick at `PH = RUN`, `REM = 0` restores `GUARD` and ends the WRITE. It sends nothing and changes no packet. The
rule calls `ACC`, `REM`, `OPK` meaningless from here on, so nothing is claimed of them. -/
def Obligations.FinishStepRestoresReady : Prop :=
  ∀ (s : State) (es : List Event), s.params.legal → s.events = .tick :: es → s.blk.ph = .run → s.blk.rem.val = 0 →
    ∃ t, step s = .next t ∧ t.blk.guard = .ready ∧ t.blk.ph = .idle ∧ t.blk.busy = false ∧ t.blk.ready = true ∧
      t.blk.seq = s.blk.seq ∧ t.blk.srcId = s.blk.srcId ∧ t.blk.p0 = s.blk.p0 ∧ t.blk.p1 = s.blk.p1 ∧
      t.params = s.params ∧ t.events = es ∧ t.draws = s.draws ∧ t.log = s.log

/-- The overflow path (R78 and R106's WRITE case): a tick with bits left and the active packet full sends that packet's image,
byte 0 of it `CAPBITS`, and waits, nothing else changing; when the collaborator returns, `SEQ` has advanced by one, the other
packet is active and empty, the sent one is intact, and the WRITE goes on with the same `ACC` and `REM`. -/
def Obligations.OverflowSendsThenRotates : Prop :=
  ∀ (s : State) (st : Byte) (es : List Event), s.params.legal → s.events = .tick :: .sendRet st :: es →
    s.blk.ph = .run → s.blk.opk = .write → 0 < s.blk.rem.val → s.blk.active.vbc.toNat = s.params.capBits →
    ∃ t u, step s = .next t ∧
      t = { s with events := .sendRet st :: es, blk := { s.blk with ph := .sendWait },
                   log := s.log ++ [.send (image s.params s.blk.active)] } ∧
      (((image s.params s.blk.active)[0]?).getD 0#8).toNat = s.params.capBits ∧
      step t = .next u ∧ u.blk.ph = .run ∧ u.blk.opk = .write ∧ u.blk.guard = s.blk.guard ∧
      u.blk.acc = s.blk.acc ∧ u.blk.rem = s.blk.rem ∧ u.blk.srcId = s.blk.srcId ∧
      u.blk.seq.toNat = (s.blk.seq.toNat + 1) % 256 ∧ u.blk.act = s.blk.act.other ∧
      u.blk.active.vbc = 0#8 ∧ u.blk.active.seq = u.blk.seq ∧ u.blk.active.sid = s.blk.srcId ∧
      (∀ j, j < s.params.cap → Memory.read s.params.cap u.blk.active.data j = some 0#8) ∧
      u.blk.pkt s.blk.act = s.blk.active ∧ u.params = s.params ∧ u.events = es ∧ u.draws = s.draws ∧ u.log = t.log

/-- In a state no run reaches, a store step whose `vbc` is above `CAPBITS` would read a byte R31 does not define: the model
faults there (log 9). -/
def Obligations.StoreOutsideTheArrayFaults : Prop :=
  ∀ (s : State) (es : List Event), s.params.legal → s.events = .tick :: es → s.blk.ph = .run → 0 < s.blk.rem.val →
    s.params.capBits < s.blk.active.vbc.toNat →
    step s = .fault (.dataIndexOutOfRange s.blk.act (s.blk.active.vbc.toNat / 8))

/-! ### FLUSH and FLUSH.R -/

/-- FLUSH at `PH = IDLE`, whatever `GUARD` and `vbc` hold, sends the image of the packet `SEQ mod 2` and waits; `OPK` and `PH`
are all it writes (R90). -/
def Obligations.FlushSendsTheActivePacket : Prop :=
  ∀ s : State, s.blk.ph = .idle →
    let p := if s.blk.seq.toNat % 2 = 0 then s.blk.p0 else s.blk.p1
    exec .flush s = .next { s with blk := { s.blk with opk := .flush, ph := .sendWait },
                                   log := s.log ++ [.send ([p.vbc, p.seq] ++ sidBytes s.params.srcIdOrder p.sid ++ p.data),
                                                    .accept .ok] }

/-- FLUSH.R at `PH = IDLE` sends the image of the packet `SEQ mod 2` and waits; it rotates nothing yet (R91). -/
def Obligations.FlushRSendsTheActivePacket : Prop :=
  ∀ s : State, s.blk.ph = .idle →
    let p := if s.blk.seq.toNat % 2 = 0 then s.blk.p0 else s.blk.p1
    exec .flushR s = .next { s with blk := { s.blk with opk := .flushR, ph := .sendWait },
                                    log := s.log ++ [.send ([p.vbc, p.seq] ++ sidBytes s.params.srcIdOrder p.sid ++ p.data),
                                                     .accept .ok] }

/-- R90, the whole command: any word with `op` 0x03. At `PH = IDLE`, whatever `GUARD` holds, it is accepted, sends one image, is
busy until the collaborator returns, and then everything but `OPK` is as before; while busy it is dropped. -/
def Obligations.FlushLeavesEveryPacketAsItWas : Prop :=
  (∀ (s : State) (w : CmdWord) (st : Byte) (es : List Event), s.params.legal → w.extractLsb' 40 8 = 0x03#8 →
    s.events = .cmd w :: .sendRet st :: es → s.blk.ph = .idle →
    ∃ t, step s = .next t ∧ t.blk = { s.blk with opk := .flush, ph := .sendWait } ∧ t.blk.busy = true ∧
      t.log = s.log ++ [.send (image s.params s.blk.active), .accept .ok] ∧
      step t = .next { s with events := es, blk := { s.blk with opk := .flush }, log := t.log }) ∧
  (∀ (s : State) (w : CmdWord) (es : List Event), s.params.legal → w.extractLsb' 40 8 = 0x03#8 →
    s.events = .cmd w :: es → s.blk.ph ≠ .idle →
    step s = .next { s with events := es, log := s.log ++ [.accept .dropped] })

/-- R91, the whole command: any word with `op` 0x04. At `PH = IDLE` it is accepted and sends one image, even of an empty packet;
when the collaborator returns `SEQ` has advanced by one, the other packet is active, empty and carries the new `SEQ`, and the
packet sent keeps its contents; `GUARD` is not touched. While busy it is dropped. -/
def Obligations.FlushRSendsThenRotates : Prop :=
  (∀ (s : State) (w : CmdWord) (st : Byte) (es : List Event), s.params.legal → w.extractLsb' 40 8 = 0x04#8 →
    s.events = .cmd w :: .sendRet st :: es → s.blk.ph = .idle →
    ∃ t u, step s = .next t ∧ t.blk = { s.blk with opk := .flushR, ph := .sendWait } ∧
      t.log = s.log ++ [.send (image s.params s.blk.active), .accept .ok] ∧
      step t = .next u ∧ u.blk.ph = .idle ∧ u.blk.guard = s.blk.guard ∧ u.blk.srcId = s.blk.srcId ∧
      u.blk.seq.toNat = (s.blk.seq.toNat + 1) % 256 ∧ u.blk.act = s.blk.act.other ∧
      u.blk.active.vbc = 0#8 ∧ u.blk.active.seq = u.blk.seq ∧ u.blk.active.sid = s.blk.srcId ∧
      u.blk.active.data.length = s.params.cap ∧
      (∀ j, j < s.params.cap → Memory.read s.params.cap u.blk.active.data j = some 0#8) ∧
      u.blk.pkt s.blk.act = s.blk.active ∧ u.blk.acc = s.blk.acc ∧ u.blk.rem = s.blk.rem ∧
      u.params = s.params ∧ u.events = es ∧ u.draws = s.draws ∧ u.log = t.log) ∧
  (∀ (s : State) (w : CmdWord) (es : List Event), s.params.legal → w.extractLsb' 40 8 = 0x04#8 →
    s.events = .cmd w :: es → s.blk.ph ≠ .idle →
    step s = .next { s with events := es, log := s.log ++ [.accept .dropped] })

/-- R92: an empty packet is sent like any other. After an INIT, FLUSH and FLUSH.R of a packet with `vbc = 0` send a zero count,
the current sequence number and identifier and all-zero data; whatever `vbc` is, exactly one image is sent and its byte 0 is
`vbc`. -/
def Obligations.EmptyPacketIsSentInFull : Prop :=
  ∀ (s : State) (i : Instr), i = .flush ∨ i = .flushR → s.blk.ph = .idle →
    (∃ t img, exec i s = .next t ∧ sends t.log = sends s.log ++ [img] ∧ img[0]? = some s.blk.active.vbc) ∧
    (PackerInv s → s.blk.guard = .ready → s.blk.active.vbc = 0#8 →
      ∃ t, exec i s = .next t ∧
        sends t.log = sends s.log ++
          [[0#8, s.blk.seq] ++ sidBytes s.params.srcIdOrder s.blk.srcId ++ List.replicate s.params.cap 0#8])

/-- Plain FLUSH repeats data (R94): two of them in a row send the same image twice, under the same sequence number, and leave
the active packet active. -/
def Obligations.PlainFlushSendsTheSameImageAgain : Prop :=
  ∀ (s : State) (st st' : Byte), s.params.legal → s.blk.ph = .idle →
    s.events = [.cmd (encode .flush), .sendRet st, .cmd (encode .flush), .sendRet st'] →
    ∃ t, runSteps 4 s = .next t ∧
      sends t.log = sends s.log ++ [image s.params s.blk.active, image s.params s.blk.active] ∧
      t.blk.seq = s.blk.seq ∧ t.blk.act = s.blk.act ∧ t.blk.active = s.blk.active

/-- FLUSH.R before the first INIT (R93): accepted; on return the new active packet is properly empty, `GUARD` is still
`FLUSHING`, and a WRITE presented next is dropped. -/
def Obligations.FlushRBeforeInitDoesNotMakeReady : Prop :=
  ∀ (s : State) (st : Byte) (value : Value) (width : Byte), s.params.legal → s.blk.ph = .idle → s.blk.guard = .flushing →
    s.events = [.cmd (encode .flushR), .sendRet st, .cmd (encode (.write value width))] →
    ∃ t u, runSteps 2 s = .next t ∧ t.blk.guard = .flushing ∧ t.blk.ph = .idle ∧ t.blk.active.vbc = 0#8 ∧
      (∀ j, j < s.params.cap → Memory.read s.params.cap t.blk.active.data j = some 0#8) ∧
      t.blk.active.seq = s.blk.seq + 1#8 ∧ t.blk.active.sid = s.blk.srcId ∧
      runSteps 3 s = .next u ∧ u.blk = t.blk ∧ u.log = t.log ++ [.accept .dropped]

/-! ### The send collaborator -/

/-- R106: the collaborator's return at `PH = SEND_WAIT`, by the command in progress; the status byte alters nothing. -/
def Obligations.SendReturnFollowsTheCommandInProgress : Prop :=
  ∀ (s : State) (st : Byte) (es : List Event), s.params.legal → s.events = .sendRet st :: es → s.blk.ph = .sendWait →
    (s.blk.opk = .write → step s = .next { s with events := es, blk := { rotate s.params.cap s.blk with ph := .run } }) ∧
    (s.blk.opk = .flush → step s = .next { s with events := es, blk := { s.blk with ph := .idle } }) ∧
    (s.blk.opk = .flushR → step s = .next { s with events := es, blk := { rotate s.params.cap s.blk with ph := .idle } })

/-- R107: a return when `PH != SEND_WAIT` is ignored and changes nothing. -/
def Obligations.SpuriousReturnIsIgnored : Prop :=
  ∀ (s : State) (st : Byte) (es : List Event), s.params.legal → s.events = .sendRet st :: es → s.blk.ph ≠ .sendWait →
    step s = .next { s with events := es }

/-- The status bytes have no influence on any run: replacing every one by 0 gives the same run (R59, R106). -/
def Obligations.StatusBytesNeverMatter : Prop :=
  ∀ (k : Nat) (s : State), runSteps k s.plainStatus = (runSteps k s).plainStatus

/-- R146: without a return or a reset the packer stays in `SEND_WAIT` for any number of steps and whatever else arrives: no
state element changes, nothing is sent, every command is dropped. A reset leaves it. -/
def Obligations.WaitForTheReturnNeverEndsByItself : Prop :=
  (∀ (k : Nat) (s : State), s.params.legal → s.blk.ph = .sendWait → NoReturn s.events →
    ∃ t, runSteps k s = .next t ∧ t.blk = s.blk ∧ sends t.log = sends s.log ∧
      ∀ i : Instr, exec i t = .next { t with log := t.log ++ [.accept .dropped] }) ∧
  (∀ (s : State) (es : List Event), s.params.legal → s.blk.ph = .sendWait → s.events = .reset :: es →
    ∃ t, step s = .next t ∧ t.blk.ph = .idle ∧ t.events = es ∧ t.log = s.log)

/-! ### Packets -/

/-- R35, R37: the wire layout of an image, in both byte orders of the identifier: four header bytes, then the data bytes in
index order, nothing between and nothing after. -/
def Obligations.ImageHasTheWireLayout : Prop :=
  ∀ (ps : Params) (p : Packet), p.data.length = ps.cap →
    (image ps p).length = ps.cap + 4 ∧ (image ps p)[0]? = some p.vbc ∧ (image ps p)[1]? = some p.seq ∧
    (ps.srcIdOrder = .msbFirst →
      (image ps p)[2]? = some (p.sid.extractLsb' 8 8) ∧ (image ps p)[3]? = some (p.sid.extractLsb' 0 8)) ∧
    (ps.srcIdOrder = .lsbFirst →
      (image ps p)[2]? = some (p.sid.extractLsb' 0 8) ∧ (image ps p)[3]? = some (p.sid.extractLsb' 8 8)) ∧
    ∀ j, j < ps.cap → (image ps p)[4 + j]? = Memory.read ps.cap p.data j

/-- R38: preparing packet `i` zeroes its data and its count and copies `SEQ` and `SRC_ID` into it; the other packet and every
register are unchanged. -/
def Obligations.PreparationMakesAnEmptyPacket : Prop :=
  ∀ (cap : Nat) (i : PacketId) (b : Block),
    let c := prepare cap i b
    (c.pkt i).data.length = cap ∧ (∀ j, j < cap → Memory.read cap (c.pkt i).data j = some 0#8) ∧
    (c.pkt i).vbc = 0#8 ∧ (c.pkt i).seq = b.seq ∧ (c.pkt i).sid = b.srcId ∧ c.pkt i.other = b.pkt i.other ∧
    c.seq = b.seq ∧ c.srcId = b.srcId ∧ c.guard = b.guard ∧ c.acc = b.acc ∧ c.rem = b.rem ∧ c.ph = b.ph ∧ c.opk = b.opk

/-- Rotation (R16, R39): `SEQ` advances by one mod 256, the active index alternates, the wrap included, the new active packet is
prepared with the new `SEQ`, and the packet that was active is not written. -/
def Obligations.RotationAlternatesThePackets : Prop :=
  ∀ (cap : Nat) (b : Block),
    (rotate cap b).seq.toNat = (b.seq.toNat + 1) % 256 ∧
    (rotate cap b).active = (if ((b.seq.toNat + 1) % 256) % 2 = 0 then (rotate cap b).p0 else (rotate cap b).p1) ∧
    (rotate cap b).active = { vbc := 0#8, seq := b.seq + 1#8, sid := b.srcId, data := List.replicate cap 0#8 } ∧
    (if b.seq.toNat % 2 = 0 then (rotate cap b).p0 = b.p0 ∧ (rotate cap b).active = (rotate cap b).p1
     else (rotate cap b).p1 = b.p1 ∧ (rotate cap b).active = (rotate cap b).p0) ∧
    (rotate cap b).srcId = b.srcId ∧ (rotate cap b).guard = b.guard ∧ (rotate cap b).acc = b.acc ∧
    (rotate cap b).rem = b.rem ∧ (rotate cap b).ph = b.ph ∧ (rotate cap b).opk = b.opk

/-- The sequence counter counts the rotating sends mod 256 (R95): `n` FLUSH.R, each answered, send `n` images and advance `SEQ`
by `n`, so that 256 of them restore it; `n` plain FLUSHes send `n` images and leave it alone. -/
def Obligations.SequenceCounterCountsRotatingSends : Prop :=
  (∀ (n : Nat) (s : State), s.params.legal → s.blk.ph = .idle →
    s.events = (List.replicate n [Event.cmd (encode .flushR), Event.sendRet 0#8]).flatten →
    ∃ t, runSteps (2 * n) s = .next t ∧ t.blk.ph = .idle ∧ t.blk.seq.toNat = (s.blk.seq.toNat + n) % 256 ∧
      (sends t.log).length = (sends s.log).length + n) ∧
  (∀ (n : Nat) (s : State), s.params.legal → s.blk.ph = .idle →
    s.events = (List.replicate n [Event.cmd (encode .flush), Event.sendRet 0#8]).flatten →
    ∃ t, runSteps (2 * n) s = .next t ∧ t.blk.ph = .idle ∧ t.blk.seq = s.blk.seq ∧
      (sends t.log).length = (sends s.log).length + n)

/-! ### Reset -/

/-- After reset (R28): `GUARD = FLUSHING`, `PH = IDLE`, both levels 0, and the two invariants hold, no INIT having executed. That nothing has been put out
and no event waits is the model's choice (log 5, log 8). -/
def Obligations.ResetStateMeetsTheInvariant : Prop :=
  State.reset.blk.guard = .flushing ∧ State.reset.blk.ph = .idle ∧ State.reset.blk.busy = false ∧
  State.reset.blk.ready = false ∧ State.reset.log = [] ∧ State.reset.events = [] ∧ PackerInv State.reset ∧
  GuardTells State.reset false

/-- The reset event, in any state: the command in progress is abandoned, an outstanding send is forgotten so that a later return
is spurious, and nothing is sent (R130, R107). The last clause, that a FLUSH is accepted after a reset and so before any INIT,
is R93 with the model's choice of the two treatments U4 allows (log 12). -/
def Obligations.ResetEventAbandonsEverything : Prop :=
  ∀ (s : State) (st : Byte) (es : List Event), s.params.legal → s.events = .reset :: .sendRet st :: es →
    ∃ t, step s = .next t ∧ t.blk.guard = .flushing ∧ t.blk.ph = .idle ∧ DataSized s.params t.blk ∧
      t.log = s.log ∧ t.params = s.params ∧ step t = .next { t with events := es } ∧
      ∃ u, exec .flush t = .next u ∧ u.blk.ph = .sendWait

/-- R131: once INIT has run, nothing the block held before it reaches an output. Two machines that differ in the whole block, both
at `PH = IDLE`, given the same schedule that begins with an INIT and holds no reset, give the same outputs and levels for ever. -/
def Obligations.ValuesFromBeforeInitNeverReachAnOutput : Prop :=
  ∀ (k : Nat) (s t : State) (b : Block) (sid : SourceId) (es : List Event), NoReset es →
    s.blk.ph = .idle → b.ph = .idle → s.events = .cmd (encode (.init sid)) :: es → runSteps k s = .next t →
    ∃ u, runSteps k { s with blk := b } = .next u ∧ u.log = t.log ∧
      (0 < k → u.blk.busy = t.blk.busy ∧ u.blk.ready = t.blk.ready)

/-! ### Rules over every step -/

/-- Every step keeps the invariant (R14, R20, R23, R24, R26). -/
def Obligations.StepKeepsTheInvariant : Prop :=
  ∀ s t : State, PackerInv s → step s = .next t → PackerInv t

/-- From a state that meets the invariant a step always answers a next state: no fault, no refusal (R31, R101, R113). -/
def Obligations.InvariantStepNeverStops : Prop :=
  ∀ s : State, PackerInv s → ∃ t, step s = .next t

/-- The parameters never change; one event is taken a step; the history only grows, by at most one image and one accept code a
step (R29, R98, R105). -/
def Obligations.HistoryOnlyGrows : Prop :=
  ∀ s t : State, step s = .next t →
    t.params = s.params ∧ t.events = s.events.tail ∧
    ∃ outs, t.log = s.log ++ outs ∧ (sends outs).length ≤ 1 ∧ (accepts outs).length ≤ 1

/-- The transitions of `PH`, row by row of R103, with what happens beside each; no other transition exists. Beyond the table's own
words three clauses are the model's choices: that the engine also steps when no event waits (log 6), that the finish row keeps
`ACC`, `REM` and `OPK`, which R80 calls meaningless there (log 13), and that the reset row takes its unspecified values from the
free draws of the reset's number (log 3). -/
def Obligations.PhaseTransitionsAreTheTable : Prop :=
  ∀ s t : State, step s = .next t →
    let ticks := s.events = [] ∨ s.events.head? = some .tick
    (s.events.head? = some .reset ∧ t.blk = Block.drawn s.params.cap s.draws ∧ t.blk.guard = .flushing ∧
        t.blk.ph = .idle) ∨
    (∃ w sid, s.events.head? = some (.cmd w) ∧ decode w = .instr (.init sid) ∧ s.blk.ph = .idle ∧
        t.blk = initBlock s.params.cap sid s.blk ∧ t.blk.ph = .idle) ∨
    (∃ w v n, s.events.head? = some (.cmd w) ∧ decode w = .instr (.write v n) ∧ s.blk.ph = .idle ∧ s.blk.guard = .ready ∧
        legalWidth n ∧ t.blk = acceptWriteBlock v n s.blk ∧ t.blk.guard = .flushing ∧ t.blk.opk = .write ∧ t.blk.ph = .run) ∨
    (∃ w, s.events.head? = some (.cmd w) ∧ decode w = .instr .flush ∧ s.blk.ph = .idle ∧
        t.blk = { s.blk with opk := .flush, ph := .sendWait } ∧
        sends t.log = sends s.log ++ [image s.params s.blk.active]) ∨
    (∃ w, s.events.head? = some (.cmd w) ∧ decode w = .instr .flushR ∧ s.blk.ph = .idle ∧
        t.blk = { s.blk with opk := .flushR, ph := .sendWait } ∧
        sends t.log = sends s.log ++ [image s.params s.blk.active]) ∨
    (ticks ∧ s.blk.ph = .run ∧ 0 < s.blk.rem.val ∧ s.blk.active.vbc.toNat < s.params.capBits ∧ t.blk.ph = .run ∧
        t.blk.rem.val < s.blk.rem.val ∧ t.log = s.log) ∨
    (ticks ∧ s.blk.ph = .run ∧ 0 < s.blk.rem.val ∧ s.blk.active.vbc.toNat = s.params.capBits ∧
        t.blk = { s.blk with ph := .sendWait } ∧ sends t.log = sends s.log ++ [image s.params s.blk.active]) ∨
    (ticks ∧ s.blk.ph = .run ∧ s.blk.rem.val = 0 ∧ t.blk = { s.blk with guard := .ready, ph := .idle }) ∨
    (∃ st, s.events.head? = some (.sendRet st) ∧ s.blk.ph = .sendWait ∧ s.blk.opk = .write ∧
        t.blk = { rotate s.params.cap s.blk with ph := .run }) ∨
    (∃ st, s.events.head? = some (.sendRet st) ∧ s.blk.ph = .sendWait ∧ s.blk.opk = .flush ∧
        t.blk = { s.blk with ph := .idle }) ∨
    (∃ st, s.events.head? = some (.sendRet st) ∧ s.blk.ph = .sendWait ∧ s.blk.opk = .flushR ∧
        t.blk = { rotate s.params.cap s.blk with ph := .idle }) ∨
    (t.blk = s.blk ∧ sends t.log = sends s.log)

/-- `GUARD` is written by three rules only, and by reset (R13): INIT makes it `READY`, the acceptance of a WRITE `FLUSHING`, the
last step of a WRITE `READY`. -/
def Obligations.GuardIsWrittenByThreeRules : Prop :=
  ∀ s t : State, step s = .next t → t.blk.guard ≠ s.blk.guard →
    (s.events.head? = some .reset ∧ t.blk.guard = .flushing) ∨
    (∃ w sid, s.events.head? = some (.cmd w) ∧ decode w = .instr (.init sid) ∧ s.blk.ph = .idle ∧ t.blk.guard = .ready) ∨
    (∃ w v n, s.events.head? = some (.cmd w) ∧ decode w = .instr (.write v n) ∧ s.blk.ph = .idle ∧
        t.blk.guard = .flushing ∧ t.blk.ph = .run) ∨
    (s.blk.ph = .run ∧ s.blk.rem.val = 0 ∧ t.blk.guard = .ready ∧ t.blk.ph = .idle)

/-- Who may write a packet (R14, R25, R27): but for reset, a packet changes only when it is active and a WRITE stores into it,
when it is packet 0 and INIT prepares it, or when it is not active and a return rotates to it. So the packet just sent keeps its
contents until the next rotation. -/
def Obligations.PacketsAreWrittenByStoreInitAndRotation : Prop :=
  ∀ (s t : State) (i : PacketId), step s = .next t → t.blk.pkt i ≠ s.blk.pkt i → s.events.head? ≠ some .reset →
    (i = s.blk.act ∧ s.blk.ph = .run ∧ 0 < s.blk.rem.val ∧ t.blk.seq = s.blk.seq ∧
        (t.blk.pkt i).seq = (s.blk.pkt i).seq ∧ (t.blk.pkt i).sid = (s.blk.pkt i).sid) ∨
    (i = .p0 ∧ ∃ w sid, s.events.head? = some (.cmd w) ∧ decode w = .instr (.init sid) ∧ s.blk.ph = .idle) ∨
    (i = s.blk.act.other ∧ i = t.blk.act ∧ (∃ st, s.events.head? = some (.sendRet st)) ∧ s.blk.ph = .sendWait ∧
        s.blk.opk ≠ .flush ∧ t.blk.seq = s.blk.seq + 1#8)

/-- Sends are emitted by exactly three rules (R105): the overflow path, FLUSH and FLUSH.R; each only on entering `SEND_WAIT`, so
that at most one is outstanding; each of exactly `LEN` bytes, and of the packet then active. -/
def Obligations.SendsComeFromThreeRules : Prop :=
  ∀ s t : State, PackerInv s → step s = .next t → sends t.log ≠ sends s.log →
    s.blk.ph ≠ .sendWait ∧ t.blk.ph = .sendWait ∧
    sends t.log = sends s.log ++ [image s.params s.blk.active] ∧
    (image s.params s.blk.active).length = s.params.len ∧
    ((s.blk.ph = .run ∧ 0 < s.blk.rem.val ∧ s.blk.active.vbc.toNat = s.params.capBits ∧ t.blk.opk = .write) ∨
     (∃ w, s.events.head? = some (.cmd w) ∧ decode w = .instr .flush ∧ s.blk.ph = .idle ∧ t.blk.opk = .flush) ∨
     (∃ w, s.events.head? = some (.cmd w) ∧ decode w = .instr .flushR ∧ s.blk.ph = .idle ∧ t.blk.opk = .flushR))

/-- Every image sent after an INIT is well formed (R24, R36, R142): its count is at most `CAPBITS`, it carries the current `SEQ`
and `SRC_ID`, and every data bit from the count up is 0. -/
def Obligations.SentImagesAreCleanAfterInit : Prop :=
  ∀ (s t : State) (img : List Byte), PackerInv s → s.blk.Initialised → step s = .next t → sends t.log = sends s.log ++ [img] →
    img.length = s.params.len ∧ ((img[0]?).getD 0#8).toNat ≤ s.params.capBits ∧ img[1]? = some s.blk.seq ∧
    (img.drop 2).take 2 = sidBytes s.params.srcIdOrder s.blk.srcId ∧
    ∀ pos, ((img[0]?).getD 0#8).toNat ≤ pos → pos < s.params.capBits →
      ((img[4 + pos / 8]?).getD 0#8).getLsbD (7 - pos % 8) = false

/-- R26, along every run from a state as reset leaves it: `GUARD` is `FLUSHING` exactly when no INIT has executed since the last
reset or a WRITE is in progress. GuardMeaningIsKeptByEveryStep is the same rule as a fact about one step. -/
def Obligations.GuardTellsInitAndWrite : Prop :=
  ∀ (k : Nat) (s t : State), s.blk.guard = .flushing → s.blk.ph = .idle → runSteps k s = .next t →
    ((t.blk.guard = .flushing ↔ initSince k s false = false ∨ (t.blk.ph ≠ .idle ∧ t.blk.opk = .write)) ∧
     (t.blk.ph = .idle → initSince k s false = true → t.blk.guard = .ready))

/-- R26 as an invariant: every step, from any state that meets `GuardTells` and not only from those a run reaches, keeps it, the
record of whether an INIT has executed since the last reset going along by `initAfter`. -/
def Obligations.GuardMeaningIsKeptByEveryStep : Prop :=
  ∀ (s t : State) (initialised : Bool), GuardTells s initialised → step s = .next t → GuardTells t (initAfter s initialised)

/-! ### WRITE run to completion -/

/-- With no event waiting, the engine leaves `PH = RUN` by itself within `ceil(REM/8) + 2` steps (R104, R152): the stores, and the
finish or a send. That it needs no scheduled tick for it is log 6. -/
def Obligations.EngineLeavesRunWithinTheBound : Prop :=
  ∀ s : State, PackerInv s → s.blk.ph = .run → s.events = [] →
    ∃ k t, k ≤ ceilDiv s.blk.rem.val 8 + 2 ∧ runSteps k s = .next t ∧ t.blk.ph ≠ .run

/-- Six ticks, the events that stand for the line `run` of the spec's programs, take the packer out of `PH = RUN` and leave the rest
of the schedule as it is. That `run` is six ticks is the model's reading (log 20, from R152's bounds), and that ticks left over
are skipped is its choice (log 7). -/
def Obligations.SixTicksAreOneRun : Prop :=
  ∀ (s : State) (es : List Event), PackerInv s → s.events = Line.events .run ++ es →
    ∃ t, runSteps runTicks s = .next t ∧ t.blk.ph ≠ .run ∧ t.events = es

/-- A legal WRITE can always be completed, within R152's bounds: there is a schedule of ticks and at most four returns, with any
status byte, at the end of which the packer is idle and ready again. -/
def Obligations.WriteCompletesWithinTheBounds : Prop :=
  ∀ (s : State) (value : Value) (width st : Byte), PackerInv s → s.blk.ph = .idle → s.blk.guard = .ready → legalWidth width →
    ∃ es t, (∀ e ∈ es, e = .tick ∨ e = .sendRet st) ∧ es.count (.sendRet st) ≤ 4 ∧
      es.length ≤ ceilDiv width.toNat 8 + 10 ∧
      runSteps (es.length + 1) { s with events := .cmd (encode (.write value width)) :: es } = .next t ∧
      t.events = [] ∧ t.blk.ph = .idle ∧ t.blk.guard = .ready

/-- R81, R82: a WRITE run to completion, whatever commands, spurious returns and idle ticks the schedule holds in between, leaves
the packets, `SEQ` and the sends of the bit-serial loop, a function of the state it was accepted in and its operands alone. -/
def Obligations.WriteRunsAsTheBitSerialLoop : Prop :=
  ∀ (s t : State) (value : Value) (width : Byte), WriteRunsToCompletion s t value width →
    t.blk.p0 = (writeBig s.params s.blk value width).1.p0 ∧ t.blk.p1 = (writeBig s.params s.blk value width).1.p1 ∧
    t.blk.seq = (writeBig s.params s.blk value width).1.seq ∧ t.blk.srcId = s.blk.srcId ∧ t.blk.guard = .ready ∧
    sends t.log = sends s.log ++ (writeBig s.params s.blk value width).2

/-- R83: a WRITE of `w` bits accepted with `vbc = v` performs `ceil((v+w)/CAPBITS) - 1` sends, and `SEQ` advances by that number;
at `CAP >= 4` it is 0 or 1, and it never exceeds 4. -/
def Obligations.SendsOfOneWrite : Prop :=
  ∀ (s t : State) (value : Value) (width : Byte), WriteRunsToCompletion s t value width →
    let n := ceilDiv (s.blk.active.vbc.toNat + width.toNat) s.params.capBits - 1
    (sends t.log).length = (sends s.log).length + n ∧ t.blk.seq.toNat = (s.blk.seq.toNat + n) % 256 ∧
    (4 ≤ s.params.cap → n ≤ 1) ∧ n ≤ 4

/-- A WRITE that fits, an exact fit included, sends nothing and appends its bits (R34, R88): the bits already there stay, and
position `vbc + k` takes `value[width-1-k]`; the packer stays on the same packet. -/
def Obligations.FittingWriteAppendsItsBits : Prop :=
  ∀ (s t : State) (value : Value) (width : Byte), WriteRunsToCompletion s t value width →
    s.blk.active.vbc.toNat + width.toNat ≤ s.params.capBits →
    sends t.log = sends s.log ∧ t.blk.seq = s.blk.seq ∧
    t.blk.active.vbc.toNat = s.blk.active.vbc.toNat + width.toNat ∧
    (∀ pos, pos < s.blk.active.vbc.toNat → t.blk.active.bit pos = s.blk.active.bit pos) ∧
    (∀ k, k < width.toNat →
      t.blk.active.bit (s.blk.active.vbc.toNat + k) = value.getLsbD (width.toNat - 1 - k)) ∧
    t.blk.active.Clean s.params ∧ t.blk.pkt t.blk.act.other = s.blk.pkt s.blk.act.other

/-- R85, across packets, over `writeAll`, the big-step form of WRITE (R82); it is WriteRunsAsTheBitSerialLoop that says the machine's
own WRITEs do what the big step does. The meaningful bits of all images sent by a list of legal WRITEs, in the order sent,
followed by those of the active packet, are the bits that were there before followed by the low `width` bits of each value in
call order. -/
def Obligations.PackedBitsAreTheConcatenation : Prop :=
  ∀ (ps : Params) (b : Block) (ws : List (Value × Byte)), ps.legal → DataSized ps b → b.active.Clean ps → LegalWrites ws →
    (writeAll ps ws b).2.flatMap imageBits ++ packetBits (writeAll ps ws b).1.active =
      packetBits b.active ++ writtenBits ws

/-- R84, over `writeAll`, the big-step form of WRITE (R82), as the statement before: after WRITEs of total width `T` from an empty
active packet, `vbc` is 0 if `T = 0` and else `((T-1) mod CAPBITS) + 1`, and `ceil(T/CAPBITS) - 1` images were sent. -/
def Obligations.ValidBitCountIsTheTotalWidth : Prop :=
  ∀ (ps : Params) (b : Block) (ws : List (Value × Byte)), ps.legal → b.active.vbc = 0#8 → LegalWrites ws →
    (totalWidth ws = 0 → (writeAll ps ws b).1.active.vbc = 0#8 ∧ (writeAll ps ws b).2 = []) ∧
    (0 < totalWidth ws →
      (writeAll ps ws b).1.active.vbc.toNat = (totalWidth ws - 1) % ps.capBits + 1 ∧
      (writeAll ps ws b).2.length = ceilDiv (totalWidth ws) ps.capBits - 1)
end

