-- ==== Sys2Proof/Laws/Decode.lean ====
section
/-! SUPPORT. The bits and the three fields of a command word built by `cmd48` (30_encoding.md R50). -/

namespace Sys2Proof

/-- Every bit of a command word, by the field it lies in (R50). -/
theorem cmd48_getLsbD (op width : Byte) (value : Value) (i : Nat) :
    (cmd48 op width value).getLsbD i =
      if i < 32 then value.getLsbD i else if i < 40 then width.getLsbD (i - 32) else op.getLsbD (i - 40) := by
  have h : (cmd48 op width value).getLsbD i = ((op ++ width) ++ value).getLsbD i := rfl
  rw [h, BitVec.getLsbD_append, BitVec.getLsbD_append]
  have h2 : i - 32 < 8 ↔ i < 40 := by omega
  simp only [h2, Nat.sub_sub, Nat.reduceAdd]

@[simp] theorem opField_cmd48 (op width : Byte) (value : Value) : opField (cmd48 op width value) = op := by
  apply BitVec.eq_of_getLsbD_eq
  intro i hi
  simp only [opField, BitVec.getLsbD_extractLsb', cmd48_getLsbD, hi, decide_true, Bool.true_and]
  rw [if_neg (by omega), if_neg (by omega), Nat.add_sub_cancel_left]

@[simp] theorem widthField_cmd48 (op width : Byte) (value : Value) : widthField (cmd48 op width value) = width := by
  apply BitVec.eq_of_getLsbD_eq
  intro i hi
  simp only [widthField, BitVec.getLsbD_extractLsb', cmd48_getLsbD, hi, decide_true, Bool.true_and]
  rw [if_neg (by omega), if_pos (by omega), Nat.add_sub_cancel_left]

@[simp] theorem valueField_cmd48 (op width : Byte) (value : Value) : valueField (cmd48 op width value) = value := by
  apply BitVec.eq_of_getLsbD_eq
  intro i hi
  simp only [valueField, BitVec.getLsbD_extractLsb', cmd48_getLsbD, hi, decide_true, Bool.true_and, Nat.zero_add, if_true]

@[simp] theorem sidField_cmd48 (op width : Byte) (value : Value) :
    sidField (cmd48 op width value) = value.extractLsb' 0 16 := by
  apply BitVec.eq_of_getLsbD_eq
  intro i hi
  simp only [sidField, BitVec.getLsbD_extractLsb', cmd48_getLsbD, hi, decide_true, Bool.true_and, Nat.zero_add]
  rw [if_pos (by omega)]

end Sys2Proof
end

