-- ==== Sys2Proof/Laws/History.lean ====
section
/-! SUPPORT. The observable history: the images and the accept codes of a log, piece by piece. -/

namespace Sys2Proof.Machine

@[simp] theorem sends_nil : sends [] = [] := rfl
@[simp] theorem sends_append (a b : List Output) : sends (a ++ b) = sends a ++ sends b := by simp [sends]
@[simp] theorem sends_cons_send (img : List Byte) (l : List Output) : sends (.send img :: l) = img :: sends l := rfl
@[simp] theorem sends_cons_accept (c : AcceptCode) (l : List Output) : sends (.accept c :: l) = sends l := rfl

@[simp] theorem accepts_nil : accepts [] = [] := rfl
@[simp] theorem accepts_append (a b : List Output) : accepts (a ++ b) = accepts a ++ accepts b := by simp [accepts]
@[simp] theorem accepts_cons_accept (c : AcceptCode) (l : List Output) : accepts (.accept c :: l) = c :: accepts l := rfl
@[simp] theorem accepts_cons_send (img : List Byte) (l : List Output) : accepts (.send img :: l) = accepts l := rfl

end Sys2Proof.Machine
end

