-- ==== Sys2Proof/Laws/Memory.lean ====
section
/-! SUPPORT. The data array: reading after writing, and that every operation keeps its size (20_memory.md R31, R38). -/

namespace Sys2Proof.Machine

theorem Memory.wf_iff (cap : Nat) (m : Memory) : m.wf cap = true ↔ m.length = cap := by simp [Memory.wf]

@[simp] theorem Memory.length_write (m : Memory) (j : Nat) (v : Byte) : (m.write j v).length = m.length := by
  simp [Memory.write]

@[simp] theorem Memory.length_zeroed (cap : Nat) : (Memory.zeroed cap).length = cap := by simp [Memory.zeroed]

@[simp] theorem Memory.wf_write (cap : Nat) (m : Memory) (j : Nat) (v : Byte) : (m.write j v).wf cap = m.wf cap := by
  simp [Memory.wf]

@[simp] theorem Memory.wf_zeroed (cap : Nat) : (Memory.zeroed cap).wf cap = true := by simp [Memory.wf]

theorem Memory.wf_drawn (cap n : Nat) (i : PacketId) : (Packet.drawn cap n i).data.wf cap = true := by
  simp [Memory.wf, Packet.drawn]

/-- Both data arrays of State.reset hold `CAP` bytes. -/
theorem Memory.wf_reset : State.reset.blk.p0.data.wf State.reset.params.cap = true ∧
    State.reset.blk.p1.data.wf State.reset.params.cap = true :=
  ⟨Memory.wf_drawn _ _ _, Memory.wf_drawn _ _ _⟩

/-- Every byte below `CAP` of a sized array reads. -/
theorem Memory.read_isSome {cap : Nat} {m : Memory} (h : m.length = cap) {j : Nat} (hj : j < cap) :
    Memory.read cap m j = some (m[j]'(h ▸ hj)) := by
  simp [Memory.read, hj, h]

theorem Memory.read_out (cap : Nat) (m : Memory) {j : Nat} (hj : cap ≤ j) : Memory.read cap m j = none := by
  simp [Memory.read, Nat.not_lt.mpr hj]

theorem Memory.read_write_same {cap : Nat} {m : Memory} (h : m.length = cap) {j : Nat} (hj : j < cap) (v : Byte) :
    Memory.read cap (m.write j v) j = some v := by
  simp [Memory.read, Memory.write, hj, h]

theorem Memory.read_write_other (cap : Nat) (m : Memory) {j k : Nat} (hk : k ≠ j) (v : Byte) :
    Memory.read cap (m.write j v) k = Memory.read cap m k := by
  simp only [Memory.read, Memory.write, List.getElem?_set_ne (Ne.symm hk)]

theorem Memory.read_zeroed {cap j : Nat} (hj : j < cap) : Memory.read cap (Memory.zeroed cap) j = some 0#8 := by
  simp [Memory.read, Memory.zeroed, hj]

@[simp] theorem Packet.length_setBit (p : Packet) (pos : Nat) (v : Bool) :
    (p.setBit pos v).data.length = p.data.length := by
  simp [Packet.setBit]

/-- Every bit of a zeroed array is 0. -/
theorem Packet.bit_zeroed (vbc : Byte) (seq : SeqNum) (sid : SourceId) (cap pos : Nat) :
    Packet.bit { vbc := vbc, seq := seq, sid := sid, data := Memory.zeroed cap } pos = false := by
  simp only [Packet.bit, Memory.zeroed, List.getElem?_replicate]
  split <;> simp

end Sys2Proof.Machine
end

