-- ==== Sys2Proof/Laws/Operands.lean ====
section
/-! SUPPORT. The bounds of 41_write_data.md R89: no operation of WRITE overflows where R89 says it does not. -/

namespace Sys2Proof.Machine

theorem bitOffset_lt (vbc : Byte) : bitOffset vbc < 8 := Nat.mod_lt _ (by decide)

/-- `byte` is `0 .. CAP-1` while the packet is not full (R31, R79). -/
theorem byteIndex_lt {ps : Params} {vbc : Byte} (h : vbc.toNat < ps.capBits) : byteIndex vbc < ps.cap := by
  simp only [byteIndex, Params.capBits] at *; omega

theorem vbc_eq_index_offset (vbc : Byte) : vbc.toNat = 8 * byteIndex vbc + bitOffset vbc := by
  simp only [byteIndex, bitOffset]; omega

/-- `n` is `1 .. 8`, fits the byte, and does not exceed `REM` (R79, R89). -/
theorem chunkLen_bounds (vbc : Byte) {rem : Fin 33} (h : 0 < rem.val) :
    1 ≤ chunkLen vbc rem ∧ chunkLen vbc rem + bitOffset vbc ≤ 8 ∧ chunkLen vbc rem ≤ rem.val := by
  have := bitOffset_lt vbc
  simp only [chunkLen]; omega

theorem remOfWidth_val {width : Byte} (h : legalWidth width) : (remOfWidth width).val = width.toNat := by
  simp only [remOfWidth, Fin.ofNat]; exact Nat.mod_eq_of_lt (by have := h.2; omega)

theorem advanceRem_val (rem : Fin 33) (n : Nat) : (advanceRem rem n).val = rem.val - n := by
  simp only [advanceRem, Fin.ofNat]; exact Nat.mod_eq_of_lt (by have := rem.isLt; omega)

/-- `vbc + n` does not leave 8 bits, and stays within the packet (R23, R89). -/
theorem advanceVbc_toNat {ps : Params} (hc : ps.legal) {vbc : Byte} {rem : Fin 33} (h : vbc.toNat < ps.capBits) :
    (advanceVbc vbc (chunkLen vbc rem)).toNat = vbc.toNat + chunkLen vbc rem ∧
      vbc.toNat + chunkLen vbc rem ≤ ps.capBits := by
  have h8 := vbc_eq_index_offset vbc
  have hb := byteIndex_lt h
  have hl := hc.2
  have hn : chunkLen vbc rem ≤ 8 - bitOffset vbc := Nat.min_le_left _ _
  simp only [advanceVbc, Params.capBits, BitVec.toNat_add, BitVec.toNat_ofNat] at *
  omega

/-- A chunk of `n` bits holds the accumulator's top `n` bits and nothing above them (R79). -/
theorem chunk_getLsbD (acc : Value) {n : Nat} (h : n ≤ 8) (k : Nat) :
    (chunk acc n).getLsbD k = (decide (k < n) && acc.getLsbD (32 - n + k)) := by
  simp only [chunk, BitVec.getLsbD_setWidth, BitVec.getLsbD_ushiftRight]
  by_cases hk : k < n
  · simp [hk, show k < 8 by omega]
  · simp [hk, BitVec.getLsbD_of_ge acc (32 - n + k) (by omega)]

end Sys2Proof.Machine
end

