-- ==== Sys2Proof/Laws/State.lean ====
section
/-! SUPPORT. One lemma per field per named update of State, Block and Packet selection, true by rfl. -/

namespace Sys2Proof

@[simp] theorem PacketId.other_other (i : PacketId) : i.other.other = i := by cases i <;> rfl
@[simp] theorem PacketId.other_ne (i : PacketId) : i.other ≠ i := by cases i <;> decide
theorem PacketId.eq_or_other (i j : PacketId) : j = i ∨ j = i.other := by cases i <;> cases j <;> simp [PacketId.other]

end Sys2Proof

namespace Sys2Proof.Machine

/-! ### `State.put` and `emitSend` -/

@[simp] theorem State.put_params (o : Output) (s : State) : (s.put o).params = s.params := rfl
@[simp] theorem State.put_blk (o : Output) (s : State) : (s.put o).blk = s.blk := rfl
@[simp] theorem State.put_events (o : Output) (s : State) : (s.put o).events = s.events := rfl
@[simp] theorem State.put_draws (o : Output) (s : State) : (s.put o).draws = s.draws := rfl
@[simp] theorem State.put_log (o : Output) (s : State) : (s.put o).log = s.log ++ [o] := rfl

@[simp] theorem emitSend_params (s : State) : (emitSend s).params = s.params := rfl
@[simp] theorem emitSend_blk (s : State) : (emitSend s).blk = s.blk := rfl
@[simp] theorem emitSend_events (s : State) : (emitSend s).events = s.events := rfl
@[simp] theorem emitSend_draws (s : State) : (emitSend s).draws = s.draws := rfl
@[simp] theorem emitSend_log (s : State) :
    (emitSend s).log = s.log ++ [.send (image s.params s.blk.active)] := rfl

/-! ### `startFlush` -/

@[simp] theorem startFlush_params (k : Opk) (s : State) : (startFlush k s).params = s.params := rfl
@[simp] theorem startFlush_events (k : Opk) (s : State) : (startFlush k s).events = s.events := rfl
@[simp] theorem startFlush_draws (k : Opk) (s : State) : (startFlush k s).draws = s.draws := rfl
@[simp] theorem startFlush_blk (k : Opk) (s : State) :
    (startFlush k s).blk = { s.blk with opk := k, ph := .sendWait } := rfl
@[simp] theorem startFlush_log (k : Opk) (s : State) :
    (startFlush k s).log = s.log ++ [.send (image s.params s.blk.active)] := rfl

/-! ### `Block.setPkt` -/

@[simp] theorem Block.setPkt_seq (b : Block) (i : PacketId) (p : Packet) : (b.setPkt i p).seq = b.seq := by cases i <;> rfl
@[simp] theorem Block.setPkt_srcId (b : Block) (i : PacketId) (p : Packet) : (b.setPkt i p).srcId = b.srcId := by
  cases i <;> rfl
@[simp] theorem Block.setPkt_guard (b : Block) (i : PacketId) (p : Packet) : (b.setPkt i p).guard = b.guard := by
  cases i <;> rfl
@[simp] theorem Block.setPkt_acc (b : Block) (i : PacketId) (p : Packet) : (b.setPkt i p).acc = b.acc := by cases i <;> rfl
@[simp] theorem Block.setPkt_rem (b : Block) (i : PacketId) (p : Packet) : (b.setPkt i p).rem = b.rem := by cases i <;> rfl
@[simp] theorem Block.setPkt_ph (b : Block) (i : PacketId) (p : Packet) : (b.setPkt i p).ph = b.ph := by cases i <;> rfl
@[simp] theorem Block.setPkt_opk (b : Block) (i : PacketId) (p : Packet) : (b.setPkt i p).opk = b.opk := by cases i <;> rfl
@[simp] theorem Block.setPkt_act (b : Block) (i : PacketId) (p : Packet) : (b.setPkt i p).act = b.act := by
  simp [Block.act]

@[simp] theorem Block.pkt_setPkt_same (b : Block) (i : PacketId) (p : Packet) : (b.setPkt i p).pkt i = p := by
  cases i <;> rfl
@[simp] theorem Block.pkt_setPkt_other (b : Block) (i : PacketId) (p : Packet) :
    (b.setPkt i p).pkt i.other = b.pkt i.other := by cases i <;> rfl
theorem Block.pkt_setPkt_ne (b : Block) {i j : PacketId} (p : Packet) (h : j ≠ i) : (b.setPkt i p).pkt j = b.pkt j := by
  cases i <;> cases j <;> first | rfl | exact absurd rfl h

@[simp] theorem Block.setPkt_pkt_self (b : Block) (i : PacketId) : b.setPkt i (b.pkt i) = b := by cases i <;> rfl

/-! ### `bumpSeq` and the active index -/

@[simp] theorem bumpSeq_seq (b : Block) : (bumpSeq b).seq = b.seq + 1#8 := rfl
@[simp] theorem bumpSeq_srcId (b : Block) : (bumpSeq b).srcId = b.srcId := rfl
@[simp] theorem bumpSeq_guard (b : Block) : (bumpSeq b).guard = b.guard := rfl
@[simp] theorem bumpSeq_acc (b : Block) : (bumpSeq b).acc = b.acc := rfl
@[simp] theorem bumpSeq_rem (b : Block) : (bumpSeq b).rem = b.rem := rfl
@[simp] theorem bumpSeq_ph (b : Block) : (bumpSeq b).ph = b.ph := rfl
@[simp] theorem bumpSeq_opk (b : Block) : (bumpSeq b).opk = b.opk := rfl
@[simp] theorem bumpSeq_pkt (b : Block) (i : PacketId) : (bumpSeq b).pkt i = b.pkt i := by cases i <;> rfl

/-- Incrementing the counter alternates the active index, the wrap from 255 to 0 included (R16). -/
@[simp] theorem bumpSeq_act (b : Block) : (bumpSeq b).act = b.act.other := by
  have h := b.seq.isLt
  have hs : (bumpSeq b).seq.toNat = (b.seq.toNat + 1) % 256 := by simp
  simp only [Block.act, PacketId.ofParity, hs]
  by_cases e : b.seq.toNat % 2 = 0
  · have e' : ¬ (b.seq.toNat + 1) % 256 % 2 = 0 := by omega
    rw [if_pos e, if_neg e']; rfl
  · have e' : (b.seq.toNat + 1) % 256 % 2 = 0 := by omega
    rw [if_neg e, if_pos e']; rfl

end Sys2Proof.Machine
end

