-- ==== Sys2Proof/Laws/Ops.lean ====
section
/-! SUPPORT. What each shared operation does, said once: preparation, rotation, the wire image, answering a command. -/

namespace Sys2Proof.Machine

/-! ### Preparation and rotation -/

@[simp] theorem prepare_seq (cap : Nat) (i : PacketId) (b : Block) : (prepare cap i b).seq = b.seq := by simp [prepare]
@[simp] theorem prepare_srcId (cap : Nat) (i : PacketId) (b : Block) : (prepare cap i b).srcId = b.srcId := by simp [prepare]
@[simp] theorem prepare_guard (cap : Nat) (i : PacketId) (b : Block) : (prepare cap i b).guard = b.guard := by simp [prepare]
@[simp] theorem prepare_acc (cap : Nat) (i : PacketId) (b : Block) : (prepare cap i b).acc = b.acc := by simp [prepare]
@[simp] theorem prepare_rem (cap : Nat) (i : PacketId) (b : Block) : (prepare cap i b).rem = b.rem := by simp [prepare]
@[simp] theorem prepare_ph (cap : Nat) (i : PacketId) (b : Block) : (prepare cap i b).ph = b.ph := by simp [prepare]
@[simp] theorem prepare_opk (cap : Nat) (i : PacketId) (b : Block) : (prepare cap i b).opk = b.opk := by simp [prepare]
@[simp] theorem prepare_act (cap : Nat) (i : PacketId) (b : Block) : (prepare cap i b).act = b.act := by simp [prepare]
@[simp] theorem prepare_pkt_same (cap : Nat) (i : PacketId) (b : Block) :
    (prepare cap i b).pkt i = { vbc := 0#8, seq := b.seq, sid := b.srcId, data := Memory.zeroed cap } := by simp [prepare]
@[simp] theorem prepare_pkt_other (cap : Nat) (i : PacketId) (b : Block) :
    (prepare cap i b).pkt i.other = b.pkt i.other := by simp [prepare]

@[simp] theorem rotate_srcId (cap : Nat) (b : Block) : (rotate cap b).srcId = b.srcId := by simp [rotate]
@[simp] theorem rotate_guard (cap : Nat) (b : Block) : (rotate cap b).guard = b.guard := by simp [rotate]
@[simp] theorem rotate_acc (cap : Nat) (b : Block) : (rotate cap b).acc = b.acc := by simp [rotate]
@[simp] theorem rotate_rem (cap : Nat) (b : Block) : (rotate cap b).rem = b.rem := by simp [rotate]
@[simp] theorem rotate_ph (cap : Nat) (b : Block) : (rotate cap b).ph = b.ph := by simp [rotate]
@[simp] theorem rotate_opk (cap : Nat) (b : Block) : (rotate cap b).opk = b.opk := by simp [rotate]
@[simp] theorem rotate_seq_val (cap : Nat) (b : Block) : (rotate cap b).seq = b.seq + 1#8 := by simp [rotate]
@[simp] theorem rotate_act (cap : Nat) (b : Block) : (rotate cap b).act = b.act.other := by simp [rotate]

/-- The packet a rotation makes active: empty, with the new counter and the stored identifier (R38, R39). -/
theorem rotate_active (cap : Nat) (b : Block) : (rotate cap b).active =
    { vbc := 0#8, seq := b.seq + 1#8, sid := b.srcId, data := Memory.zeroed cap } := by
  have h : (rotate cap b).act = (bumpSeq b).act := by simp [rotate]
  simp only [Block.active, h]
  simp only [rotate, prepare_pkt_same, bumpSeq_seq, bumpSeq_srcId]

/-- The packet that was active is not written by a rotation (R39). -/
theorem rotate_pkt_act (cap : Nat) (b : Block) : (rotate cap b).pkt b.act = b.pkt b.act := by
  have h : b.act = (bumpSeq b).act.other := by simp
  rw [h]
  simp only [rotate, prepare_pkt_other, bumpSeq_pkt]

/-- Rotation and the sequencer's registers do not meet. -/
theorem rotate_sequencer (cap : Nat) (b : Block) (k : Opk) (p : Phase) :
    rotate cap { b with opk := k, ph := p } = { rotate cap b with opk := k, ph := p } := by
  simp only [rotate, prepare, bumpSeq, Block.act]
  cases PacketId.ofParity (b.seq + 1#8).toNat <;> rfl

/-! ### The wire image -/

@[simp] theorem length_sidBytes (o : SrcIdOrder) (s : SourceId) : (sidBytes o s).length = 2 := by cases o <;> rfl

/-- An image has four header bytes and the data array (R35, R36). -/
@[simp] theorem length_image (ps : Params) (p : Packet) : (image ps p).length = p.data.length + 4 := by
  simp [image]; omega

/-! ### Answering a command -/

theorem reject_next {code : AcceptCode} {s t : State} (h : reject code s = .next t) : t = s.put (.accept code) := by
  simpa [reject, eq_comm] using h

theorem acceptOk_next {s t : State} (h : acceptOk s = .next t) : t = s.put (.accept .ok) := by
  simpa [acceptOk, eq_comm] using h

@[simp] theorem Block.busy_eq_false (b : Block) : b.busy = false ↔ b.ph = .idle := by simp [Block.busy]
@[simp] theorem Block.busy_eq_true (b : Block) : b.busy = true ↔ b.ph ≠ .idle := by simp [Block.busy]
@[simp] theorem Block.ready_eq_true (b : Block) : b.ready = true ↔ b.guard = .ready := by simp [Block.ready]

theorem whenIdle_idle {s : State} (h : s.blk.ph = .idle) (go : Result) : whenIdle s go = go := by
  simp [whenIdle, Block.busy, h]

theorem whenIdle_busy {s : State} (h : s.blk.ph ≠ .idle) (go : Result) : whenIdle s go = reject .dropped s := by
  simp [whenIdle, Block.busy, h]

/-! ### Packets under updates of the sequencer's registers -/

@[simp] theorem Block.pkt_sequencer (b : Block) (g : Guard) (a : Value) (r : Fin 33) (k : Opk) (p : Phase) (i : PacketId) :
    Block.pkt { b with guard := g, acc := a, rem := r, opk := k, ph := p } i = b.pkt i := by cases i <;> rfl

@[simp] theorem Block.act_sequencer (b : Block) (g : Guard) (a : Value) (r : Fin 33) (k : Opk) (p : Phase) :
    Block.act { b with guard := g, acc := a, rem := r, opk := k, ph := p } = b.act := rfl

@[simp] theorem Block.active_sequencer (b : Block) (g : Guard) (a : Value) (r : Fin 33) (k : Opk) (p : Phase) :
    Block.active { b with guard := g, acc := a, rem := r, opk := k, ph := p } = b.active := by
  simp only [Block.active, Block.pkt_sequencer, Block.act_sequencer]

/-! ### The active packet under updates that leave the packets alone -/

/-- The active packet depends on the counter and the two packets only. -/
theorem Block.active_congr {b c : Block} (hs : b.seq = c.seq) (h0 : b.p0 = c.p0) (h1 : b.p1 = c.p1) :
    b.active = c.active := by
  have ha : b.act = c.act := by simp only [Block.act, hs]
  simp only [Block.active, ha]
  cases c.act <;> simp [Block.pkt, h0, h1]

end Sys2Proof.Machine
end

