-- ==== Sys2Proof/Laws/PerInstr.lean ====
section
/-! SUPPORT. Statements for all commands, one lemma per constructor. Family `Opcode`: the word an assembler writes carries the
command's operation code in bits 47:40 (30_encoding.md R50, R52). -/

namespace Sys2Proof.Laws.Opcode

/-- Bits 47:40 of the encoded command are its operation code. -/
def Statement (i : Instr) : Prop := opField (encode i) = i.op

theorem init (sid : SourceId) : Statement (.init sid) := opField_cmd48 _ _ _

theorem write (value : Value) (width : Byte) : Statement (.write value width) := opField_cmd48 _ _ _

theorem flush : Statement .flush := opField_cmd48 _ _ _

theorem flushR : Statement .flushR := opField_cmd48 _ _ _

end Sys2Proof.Laws.Opcode
end

