-- ==== Sys2Proof/Laws/Step.lean ====
section
/-! SUPPORT. What a step can do, said once: one inversion lemma per event and one for `step` itself. Proofs over all steps cite
these and do not unfold `step`. -/

namespace Sys2Proof.Machine

/-- A step of a machine with a legal capacity takes the next event, or lets the engine go on. -/
theorem step_legal {s : State} (h : s.params.legal) : step s = takeNext s := by simp [step, guardedNext, h]

theorem step_illegal {s : State} (h : ¬ s.params.legal) : step s = .refused (.illegalCapacity s.params.cap) := by
  simp only [step, guardedNext, if_neg h]

/-- A step that answers a next state was one of a legal machine. -/
theorem legal_of_step {s t : State} (h : step s = .next t) : s.params.legal := by
  by_cases hl : s.params.legal
  · exact hl
  · rw [step_illegal hl] at h; cases h

/-- A step with an event waiting takes it off the schedule. -/
theorem step_event {s : State} {e : Event} {es : List Event} (h : s.params.legal) (he : s.events = e :: es) :
    step s = takeEvent e { s with events := es } := by rw [step_legal h, takeNext, he]

/-- A step with no event waiting is the engine's. -/
theorem step_empty {s : State} (h : s.params.legal) (he : s.events = []) : step s = takeTick s := by
  rw [step_legal h, takeNext, he, takeNothing]

/-- What the command port can answer: a rejection that changes nothing but the log, or an acceptance. -/
theorem exec_cases {i : Instr} {s t : State} (h : exec i s = .next t) :
    (∃ c, c ≠ .ok ∧ t = s.put (.accept c)) ∨
    (s.blk.ph = .idle ∧
      ((∃ sid, i = .init sid ∧ t = State.put (.accept .ok) { s with blk := initBlock s.params.cap sid s.blk }) ∨
       (∃ v w, i = .write v w ∧ s.blk.guard = .ready ∧ legalWidth w ∧
          t = State.put (.accept .ok) { s with blk := acceptWriteBlock v w s.blk }) ∨
       (i = .flush ∧ t = State.put (.accept .ok) (startFlush .flush s)) ∨
       (i = .flushR ∧ t = State.put (.accept .ok) (startFlush .flushR s)))) := by
  by_cases hi : s.blk.ph = .idle
  · cases i with
    | init sid =>
      simp only [exec, execInit, whenIdle_idle hi] at h
      exact .inr ⟨hi, .inl ⟨sid, rfl, acceptOk_next h⟩⟩
    | write v w =>
      simp only [exec, execWrite, whenIdle_idle hi] at h
      split at h
      · exact .inl ⟨.dropped, by decide, reject_next h⟩
      · rename_i hg
        split at h
        · exact .inl ⟨.invalidWidth, by decide, reject_next h⟩
        · rename_i hw
          exact .inr ⟨hi, .inr (.inl ⟨v, w, rfl, not_not.mp hg, not_not.mp hw, acceptOk_next h⟩)⟩
    | flush =>
      simp only [exec, execFlush, whenIdle_idle hi] at h
      exact .inr ⟨hi, .inr (.inr (.inl ⟨rfl, acceptOk_next h⟩))⟩
    | flushR =>
      simp only [exec, execFlushR, whenIdle_idle hi] at h
      exact .inr ⟨hi, .inr (.inr (.inr ⟨rfl, acceptOk_next h⟩))⟩
  · refine .inl ⟨.dropped, by decide, reject_next (s := s) ?_⟩
    cases i <;> simpa only [exec, execInit, execWrite, execFlush, execFlushR, whenIdle_busy hi] using h

/-- The block after a store step that read `old` (R79). -/
def storeBlock (b : Block) (old : Byte) : Block :=
  { b.setPkt b.act (storePacket b.active old b.acc (chunkLen b.active.vbc b.rem)) with
      acc := advanceAcc b.acc (chunkLen b.active.vbc b.rem), rem := advanceRem b.rem (chunkLen b.active.vbc b.rem) }

/-- The three things an engine step can do (R77), and when. -/
theorem engineStep_cases {s t : State} (h : engineStep s = .next t) :
    (s.blk.rem.val = 0 ∧ t = { s with blk := { s.blk with guard := .ready, ph := .idle } }) ∨
    (0 < s.blk.rem.val ∧ s.blk.active.vbc.toNat = s.params.capBits ∧
      t = { s with blk := { s.blk with ph := .sendWait }, log := s.log ++ [.send (image s.params s.blk.active)] }) ∨
    (0 < s.blk.rem.val ∧ s.blk.active.vbc.toNat ≠ s.params.capBits ∧
      ∃ old, Memory.read s.params.cap s.blk.active.data (byteIndex s.blk.active.vbc) = some old ∧
        t = { s with blk := storeBlock s.blk old }) := by
  unfold engineStep at h
  split at h
  · rename_i h0; exact .inl ⟨h0, by simpa [finishWrite, eq_comm] using h⟩
  · rename_i h0
    split at h
    · rename_i hf; exact .inr (.inl ⟨Nat.pos_of_ne_zero h0, hf, by simpa [overflowSend, emitSend, State.put, eq_comm] using h⟩)
    · rename_i hf
      refine .inr (.inr ⟨Nat.pos_of_ne_zero h0, hf, ?_⟩)
      simp only [storeChunk] at h
      split at h
      · cases h
      · rename_i old ho; exact ⟨old, ho, by simpa [storeBlock, eq_comm] using h⟩

/-- Everything a step can do, by the event it takes; `s'` is the state with the event taken off the schedule. -/
theorem step_cases {s t : State} (h : step s = .next t) :
    s.params.legal ∧ ∃ s', s'.params = s.params ∧ s'.blk = s.blk ∧ s'.log = s.log ∧ s'.draws = s.draws ∧
      s'.events = s.events.tail ∧
      ((s.events = [] ∧ takeTick s' = .next t) ∨
       (∃ es, s.events = .reset :: es ∧ takeReset s' = .next t) ∨
       (∃ w es, s.events = .cmd w :: es ∧ takeCmd w s' = .next t) ∨
       (∃ es, s.events = .tick :: es ∧ takeTick s' = .next t) ∨
       (∃ st es, s.events = .sendRet st :: es ∧ takeSendRet st s' = .next t)) := by
  have hl := legal_of_step h
  refine ⟨hl, ?_⟩
  rw [step_legal hl] at h
  unfold takeNext at h
  split at h
  · rename_i he
    exact ⟨s, rfl, rfl, rfl, rfl, by simp [he], .inl ⟨he, h⟩⟩
  · rename_i e es he
    refine ⟨{ s with events := es }, rfl, rfl, rfl, rfl, by simp [he], ?_⟩
    cases e with
    | reset => exact .inr (.inl ⟨es, he, h⟩)
    | cmd w => exact .inr (.inr (.inl ⟨w, es, he, h⟩))
    | tick => exact .inr (.inr (.inr (.inl ⟨es, he, h⟩)))
    | sendRet st => exact .inr (.inr (.inr (.inr ⟨st, es, he, h⟩)))

/-- One step of the host's run, by the step's answer. -/
theorem core_run_next (M : Host.Core) {k : Nat} {s s' : M.State} (h : M.step s = .next s') :
    M.run (k + 1) s = M.run k s' := by simp [Host.Core.run, h]
theorem core_run_fault (M : Host.Core) {k : Nat} {s : M.State} {r : M.Fault} (h : M.step s = .fault r) :
    M.run (k + 1) s = .fault r := by simp [Host.Core.run, h]
theorem core_run_refused (M : Host.Core) {k : Nat} {s : M.State} {r : M.Refusal} (h : M.step s = .refused r) :
    M.run (k + 1) s = .refused r := by simp [Host.Core.run, h]

/-- The model's runs are the host's. -/
theorem runSteps_eq_core_run (k : Nat) (s : State) : runSteps k s = Sys2Proof.core.run k s := by
  induction k generalizing s with
  | zero => rfl
  | succ k ih =>
    cases h : step s with
    | next s' =>
      have e : runSteps (k + 1) s = runSteps k s' := by simp [runSteps, h]
      exact e.trans ((ih s').trans (core_run_next Sys2Proof.core h).symm)
    | fault r =>
      have e : runSteps (k + 1) s = .fault r := by simp [runSteps, h]
      exact e.trans (core_run_fault Sys2Proof.core h).symm
    | refused r =>
      have e : runSteps (k + 1) s = .refused r := by simp [runSteps, h]
      exact e.trans (core_run_refused Sys2Proof.core h).symm

/-- A run of `k + 1` steps that answers is one step and a run of `k`. -/
theorem runSteps_succ {k : Nat} {s t : State} (h : runSteps (k + 1) s = .next t) :
    ∃ s', step s = .next s' ∧ runSteps k s' = .next t := by
  simp only [runSteps] at h
  split at h
  · rename_i s' hs; exact ⟨s', hs, h⟩
  · cases h
  · cases h

/-- Packaged induction: a property that every step keeps holds at the end of every run. -/
theorem runSteps_induct {P : State → Prop} (hstep : ∀ s t, P s → step s = .next t → P t) {k : Nat} {s t : State}
    (h0 : P s) (h : runSteps k s = .next t) : P t := by
  induction k generalizing s with
  | zero => simpa [runSteps] using (by simpa [runSteps] using h : s = t) ▸ h0
  | succ k ih =>
    obtain ⟨s', hs, hr⟩ := runSteps_succ h
    exact ih (hstep _ _ h0 hs) hr

end Sys2Proof.Machine
end

