-- ==== Sys2Proof/Tests/Slice0.lean ====
section
/-! SUPPORT. Checks of the model against words and vectors of spec/ (95_test_vectors.md, 30_encoding.md), and for every statement
with hypotheses a concrete state that meets them all (theorems `witness_…`). -/

namespace Sys2Proof.Tests

open Sys2Proof.Machine

/-! ### Helpers -/

/-- A packet with the given count and data, `seq` 0, `sid` 0x0102. -/
def pk (vbc : Byte) (data : List Byte) : Packet := { vbc := vbc, seq := 0#8, sid := 0x0102#16, data := data }

/-- A packet nobody prepared. -/
def junk : Packet := { vbc := 0xEE#8, seq := 0x99#8, sid := 0x7777#16, data := [0x5A#8, 0xA5#8] }

/-- An idle, initialised packer of capacity 2 with active packet `p`. -/
def idle (p : Packet) (es : List Event) : State :=
  { params := { cap := 2, srcIdOrder := .msbFirst },
    blk := { seq := 0#8, srcId := 0x0102#16, guard := .ready, p0 := p, p1 := junk, acc := 0#32, rem := 0, ph := .idle, opk := .write },
    events := es, log := [], draws := 1 }

/-- The same packer with a WRITE in progress. -/
def running (p : Packet) (acc : Value) (rem : Fin 33) (es : List Event) : State :=
  { idle p es with blk := { (idle p es).blk with guard := .flushing, acc := acc, rem := rem, ph := .run } }

/-- The same packer waiting for the collaborator. -/
def waiting (g : Guard) (k : Opk) (rem : Fin 33) (es : List Event) : State :=
  { idle (pk 16#8 [0xAB#8, 0xCD#8]) es with
      blk := { (idle (pk 16#8 [0xAB#8, 0xCD#8]) es).blk with guard := g, rem := rem, ph := .sendWait, opk := k } }

/-- The packer before its first INIT. -/
def uninit (es : List Event) : State := { idle junk es with blk := { (idle junk es).blk with guard := .flushing, seq := 0x37#8 } }

/-- A fact about the next state. -/
def nextIs (r : Result) (f : State → Bool) : Bool :=
  match r with
  | .next t => f t
  | .fault _ => false
  | .refused _ => false

/-- An empty packet. -/
def empty : Packet := pk 0#8 [0#8, 0#8]

/-! ### WellFormed refuses an ill-formed term for each check (R56) -/

theorem test_wf_width_zero : (Instr.write 0xFF#32 0#8).wellFormed = false := by decide
theorem test_wf_width_33 : (Instr.write 0xFF#32 33#8).wellFormed = false := by decide
theorem test_wf_width_255 : (Instr.write 0xFF#32 255#8).wellFormed = false := by decide
theorem test_wf_width_bounds : (Instr.write 0#32 1#8).wellFormed = true ∧ (Instr.write 0#32 32#8).wellFormed = true := by decide

/-! ### Words written out from R50 and R52: `op` 8 bits, `width` 8 bits, `value` 32 bits -/

/-- op 00000001, width ignored (here all ones), value_hi ignored (here all ones), sid 0001001000110100. -/
theorem test_decode_init :
    decode 0b000000011111111111111111111111110001001000110100#48 = .instr (.init 0x1234#16) := by decide
/-- op 00000010, width 00001100, value 0xABC. -/
theorem test_decode_write :
    decode 0b000000100000110000000000000000000000101010111100#48 = .instr (.write 0xABC#32 12#8) := by decide
/-- op 00000011, all other bits ignored. -/
theorem test_decode_flush : decode 0b000000111010101010101010101010101010101010101010#48 = .instr .flush := by decide
/-- op 00000100, all other bits ignored. -/
theorem test_decode_flushR : decode 0b000001000101010101010101010101010101010101010101#48 = .instr .flushR := by decide
/-- V19: 0x7F is reserved. -/
theorem test_decode_reserved : decode 0x7F0000000000#48 = .illegalOp 0x7F#8 := by decide
/-- R61: the word an assembler writes for `write 0xABC, 12` (V1). -/
theorem test_encode_write : encode (.write 0xABC#32 12#8) = 0x020C00000ABC#48 := by decide
/-- The opcode table's numbering gives the same commands. -/
theorem test_table_words : decodeTableWord 48 0x040000000000 = some .flushR ∧ decodeTableWord 48 0 = none := by decide
/-- R61: two lines of P1. -/
theorem test_script : scriptEvents [.cmd (.init 0x1234#16), .ret 0#8] = [.cmd 0x010000001234#48, .sendRet 0#8] := by decide
/-- R117: `reset` wins over an event delivered with it. -/
theorem test_reset_wins : Event.together (.cmd 0x010000001234#48) .reset = some .reset := by decide

/-! ### INIT -/

/-- V0, on a packer never initialised: `SEQ` 0, packet 0 empty with the identifier, ready. -/
theorem test_init_V0 : nextIs (exec (.init 0x1234#16) (uninit [])) (fun t =>
    decide (t.blk.p0 = { vbc := 0#8, seq := 0#8, sid := 0x1234#16, data := [0#8, 0#8] } ∧ t.blk.seq = 0#8 ∧
      t.blk.guard = .ready ∧ t.log = [.accept .ok])) = true := by decide
/-- V17: a second INIT leaves packet 1 alone. -/
theorem test_init_V17 : nextIs (exec (.init 0x2222#16) (idle (pk 8#8 [0xAA#8, 0#8]) [])) (fun t =>
    decide (t.blk.p1 = junk ∧ t.blk.p0.vbc = 0#8 ∧ t.blk.srcId = 0x2222#16)) = true := by decide

/-! ### WRITE -/

/-- 41_write_data.md section 5: `write 0xABC, 12` is accepted with `ACC = ABC00000`, `REM = 12`. -/
theorem test_write_accept : nextIs (exec (.write 0xABC#32 12#8) (idle empty [])) (fun t =>
    decide (t.blk.acc = 0xABC00000#32 ∧ t.blk.rem = 12 ∧ t.blk.guard = .flushing ∧ t.blk.ph = .run)) = true := by decide
/-- V6: bits of the value above the width are shifted out. -/
theorem test_write_V6 : nextIs (exec (.write 0xFFFFFFF5#32 4#8) (idle empty [])) (fun t =>
    decide (t.blk.acc = 0x50000000#32)) = true := by decide
/-- V8: width 33 is rejected. -/
theorem test_write_V8 : nextIs (exec (.write 0xFF#32 33#8) (idle empty [])) (fun t =>
    decide (t.blk = (idle empty []).blk ∧ t.log = [.accept .invalidWidth])) = true := by decide
/-- V9: before INIT a WRITE is dropped, an illegal width too. -/
theorem test_write_V9 : nextIs (exec (.write 0xFF#32 0#8) State.reset) (fun t =>
    decide (t.log = [.accept .dropped])) = true := by decide

/-! ### The engine -/

/-- V5: the store `0/3/5/1B` of 0xDEADBEEF at bit offset 3 makes `data[0]` BB. -/
theorem test_store_V5 : nextIs (step (running (pk 3#8 [0xA0#8, 0#8]) 0xDEADBEEF#32 32 [.tick])) (fun t =>
    decide (t.blk.p0 = pk 8#8 [0xBB#8, 0#8] ∧ t.blk.rem = 27 ∧ t.blk.ph = .run)) = true := by decide
/-- P1: `write 0x5, 4` after `AB C0`: the store `1/4/4/5` gives `AB C5`. -/
theorem test_store_P1 : nextIs (step (running (pk 12#8 [0xAB#8, 0xC0#8]) 0x50000000#32 4 [.tick])) (fun t =>
    decide (t.blk.p0 = pk 16#8 [0xAB#8, 0xC5#8] ∧ t.blk.rem = 0)) = true := by decide
/-- P3: the full packet is sent as `10 00 01 02 F8 2A`. -/
theorem test_overflow_P3 : nextIs (step (running (pk 16#8 [0xF8#8, 0x2A#8]) 0xA0000000#32 4 [.tick])) (fun t =>
    decide (t.log = [.send [0x10#8, 0x00#8, 0x01#8, 0x02#8, 0xF8#8, 0x2A#8]] ∧ t.blk.ph = .sendWait)) = true := by decide
/-- R106: on the return of an overflow send the other packet is prepared and the WRITE goes on; the status is ignored (P2). -/
theorem test_return_write : nextIs (step (waiting .flushing .write 8 [.sendRet 0xEE#8])) (fun t =>
    decide (t.blk.seq = 1#8 ∧ t.blk.p1 = { vbc := 0#8, seq := 1#8, sid := 0x0102#16, data := [0#8, 0#8] } ∧
      t.blk.ph = .run ∧ t.blk.guard = .flushing ∧ t.blk.rem = 8)) = true := by decide
/-- V20: a spurious return changes nothing. -/
theorem test_return_V20 : nextIs (step (idle empty [.sendRet 0x55#8])) (fun t => decide (t = idle empty [])) = true := by decide
/-- R80. -/
theorem test_finish : nextIs (step (running empty 0#32 0 [.tick])) (fun t =>
    decide (t.blk.guard = .ready ∧ t.blk.ph = .idle)) = true := by decide

/-! ### FLUSH and FLUSH.R -/

/-- P3, send #2: `03 02 01 02 00 00` but for the sequence number. -/
theorem test_flush_image : nextIs (exec .flush (idle (pk 3#8 [0#8, 0#8]) [])) (fun t =>
    decide (t.log = [.send [0x03#8, 0x00#8, 0x01#8, 0x02#8, 0#8, 0#8], .accept .ok] ∧ t.blk.opk = .flush ∧
      t.blk.ph = .sendWait)) = true := by decide
/-- V16: a WRITE during the wait is dropped although `GUARD = READY`. -/
theorem test_flush_V16 : nextIs (exec (.write 0xFF#32 8#8) (waiting .ready .flush 0 [])) (fun t =>
    decide (t.log = [.accept .dropped] ∧ t.blk = (waiting .ready .flush 0 []).blk)) = true := by decide
/-- V2 with LSB_FIRST: the identifier's low byte comes first. -/
theorem test_flushR_lsb : nextIs (exec .flushR { idle empty [] with params := { cap := 2, srcIdOrder := .lsbFirst } })
    (fun t => decide (t.log = [.send [0#8, 0#8, 0x02#8, 0x01#8, 0#8, 0#8], .accept .ok] ∧ t.blk.opk = .flushR)) = true := by
  decide
/-- V13: on the return `SEQ` is 1, packet 1 is empty, packet 0 keeps what was sent. -/
theorem test_flushR_V13 : nextIs (step (waiting .ready .flushR 0 [.sendRet 0#8])) (fun t =>
    decide (t.blk.seq = 1#8 ∧ t.blk.p1.vbc = 0#8 ∧ t.blk.p0 = pk 16#8 [0xAB#8, 0xCD#8] ∧ t.blk.ph = .idle)) = true := by decide

/-! ### From reset -/

/-- Each command of the table runs as the first event after reset. -/
theorem test_first_after_reset :
    nextIs (step (State.reset.withFetchWord 48 0x010000001234)) (fun t => decide (t.log = [.accept .ok])) = true ∧
    nextIs (step (State.reset.withFetchWord 48 0x0208000000FF)) (fun t => decide (t.log = [.accept .dropped])) = true ∧
    nextIs (step (State.reset.withFetchWord 48 0x030000000000)) (fun t => decide (t.blk.opk = .flush)) = true ∧
    nextIs (step (State.reset.withFetchWord 48 0x040000000000)) (fun t => decide (t.blk.opk = .flushR)) = true := by decide
/-- D17: capacities 0 and 32 are refused, 1 and 31 are not. -/
theorem test_capacity_range :
    (¬ (Params.mk 0 .msbFirst).legal) ∧ (Params.mk 1 .msbFirst).legal ∧ (Params.mk 31 .msbFirst).legal ∧
    ¬ (Params.mk 32 .msbFirst).legal := by decide

/-! ### Witnesses: encoding and the step -/

theorem witness_DecodedWordIsEncodingOnUsedBits :
    decode 0x01FFFFFF1234#48 = .instr (.init 0x1234#16) ∧
    0x01000000FFFF#48 &&& (Instr.init 0xFFFF#16).usedBits = encode (.init 0xFFFF#16) := by decide

theorem witness_ReservedOpIsIllegalAndChangesNothing :
    (idle empty [.cmd 0x050000000000#48]).params.legal ∧
    ((0x00FFFFFFFFFF#48 : CmdWord).extractLsb' 40 8).toNat = 0 ∧
    5 ≤ ((0x050000000000#48 : CmdWord).extractLsb' 40 8).toNat ∧
    5 ≤ ((0xFFFFFFFFFFFF#48 : CmdWord).extractLsb' 40 8).toNat ∧
    (waiting .flushing .write 8 [.cmd 0#48]).events = [.cmd 0#48] ∧ (waiting .flushing .write 8 [.cmd 0#48]).params.legal := by
  decide

theorem witness_StepRunsThePresentedCommand :
    (idle empty [.cmd 0x030000000000#48]).params.legal ∧ (idle empty [.cmd 0x030000000000#48]).events = [.cmd 0x030000000000#48] ∧
    decode 0x030000000000#48 = .instr .flush ∧ decodeTableWord 48 0x030000000000 = some .flush := by decide

theorem witness_EngineStepsWhenRunning :
    (running empty 0#32 0 []).params.legal ∧ (running empty 0#32 0 []).blk.ph = .run ∧ (running empty 0#32 0 []).events = [] ∧
    (idle empty []).blk.ph ≠ .run ∧ (idle empty []).events = [] ∧
    (running empty 0#32 0 [.tick]).events = [.tick] ∧ (idle empty [.tick]).events = [.tick] ∧
    ¬ ({ idle empty [] with params := { cap := 32, srcIdOrder := .msbFirst } } : State).params.legal := by decide

/-! ### Witnesses: rejections -/

theorem witness_BusyCommandIsDropped : (waiting .ready .flush 0 []).blk.ph ≠ .idle ∧ (running empty 0#32 0 []).blk.ph ≠ .idle := by
  decide

theorem witness_DroppedWriteWritesNothing :
    (waiting .ready .flush 0 []).blk.ph ≠ .idle ∧ (uninit []).blk.guard ≠ .ready := by decide

theorem witness_IllegalWidthIsRejected :
    (idle empty []).blk.ph = .idle ∧ (idle empty []).blk.guard = .ready ∧ (0#8 : Byte).toNat = 0 ∧ 33 ≤ (33#8 : Byte).toNat ∧
    33 ≤ (255#8 : Byte).toNat := by decide

theorem witness_AcceptCodeFollowsTheCheckOrder :
    (uninit [.cmd 0x0200000000FF#48]).params.legal ∧
    (uninit [.cmd 0x0200000000FF#48]).events = [.cmd 0x0200000000FF#48] := by decide

/-! ### Witnesses: INIT and WRITE -/

theorem witness_InitPreparesPacketZero :
    (0x01FFFFFF1234#48 : CmdWord).extractLsb' 40 8 = 0x01#8 ∧ (uninit []).blk.ph = .idle ∧ (idle empty []).blk.ph = .idle ∧
    (running empty 0#32 0 []).blk.ph ≠ .idle := by decide

theorem witness_WriteAcceptanceLoadsTheValue :
    (idle empty []).blk.ph = .idle ∧ (idle empty []).blk.guard = .ready ∧
    1 ≤ (1#8 : Byte).toNat ∧ (1#8 : Byte).toNat ≤ 32 ∧ 1 ≤ (32#8 : Byte).toNat ∧ (32#8 : Byte).toNat ≤ 32 := by decide

theorem witness_StoreStepOrsOneChunk :
    let s := running (pk 15#8 [0xFF#8, 0xFE#8]) 0xC0000000#32 2 [.tick]
    s.params.legal ∧ DataSized s.params s.blk ∧ s.events = [.tick] ∧ s.blk.ph = .run ∧ 0 < s.blk.rem.val ∧
    s.blk.active.vbc.toNat < s.params.capBits ∧ s.blk.active.Clean s.params := by decide

theorem witness_FinishStepRestoresReady :
    let s := running empty 0#32 0 [.tick]
    s.params.legal ∧ s.events = [.tick] ∧ s.blk.ph = .run ∧ s.blk.rem.val = 0 := by decide

theorem witness_OverflowSendsThenRotates :
    let s := running (pk 16#8 [0xF8#8, 0x2A#8]) 0xA0000000#32 4 [.tick, .sendRet 7#8]
    s.params.legal ∧ s.events = [.tick, .sendRet 7#8] ∧ s.blk.ph = .run ∧ s.blk.opk = .write ∧ 0 < s.blk.rem.val ∧
    s.blk.active.vbc.toNat = s.params.capBits := by decide

theorem witness_StoreOutsideTheArrayFaults :
    let s := running (pk 17#8 [0#8, 0#8]) 0#32 1 [.tick]
    s.params.legal ∧ s.events = [.tick] ∧ s.blk.ph = .run ∧ 0 < s.blk.rem.val ∧
    s.params.capBits < s.blk.active.vbc.toNat := by decide

/-! ### Witnesses: FLUSH, FLUSH.R, the collaborator -/

theorem witness_FlushSendsTheActivePacket : (uninit []).blk.ph = .idle := by decide

theorem witness_FlushRSendsTheActivePacket : (idle (pk 16#8 [1#8, 2#8]) []).blk.ph = .idle := by decide

theorem witness_FlushLeavesEveryPacketAsItWas :
    (0x03AAAAAAAAAA#48 : CmdWord).extractLsb' 40 8 = 0x03#8 ∧
    (idle empty [.cmd 0x03AAAAAAAAAA#48, .sendRet 1#8]).params.legal ∧ (idle empty []).blk.ph = .idle ∧
    (waiting .ready .flush 0 [.cmd 0x03AAAAAAAAAA#48]).blk.ph ≠ .idle := by decide

theorem witness_FlushRSendsThenRotates :
    (0x040000000000#48 : CmdWord).extractLsb' 40 8 = 0x04#8 ∧
    (idle empty [.cmd 0x040000000000#48, .sendRet 1#8]).params.legal ∧ (idle empty []).blk.ph = .idle ∧
    (running empty 0#32 0 [.cmd 0x040000000000#48]).blk.ph ≠ .idle := by decide

theorem witness_EmptyPacketIsSentInFull :
    (idle empty []).blk.ph = .idle ∧ PackerInv (idle empty []) ∧ (idle empty []).blk.guard = .ready ∧
    (idle empty []).blk.active.vbc = 0#8 := by decide

theorem witness_PlainFlushSendsTheSameImageAgain :
    let es := [Event.cmd (encode .flush), .sendRet 0#8, .cmd (encode .flush), .sendRet 1#8]
    (idle empty es).params.legal ∧ (idle empty es).blk.ph = .idle ∧ (idle empty es).events = es := by decide

theorem witness_FlushRBeforeInitDoesNotMakeReady :
    let es := [Event.cmd (encode .flushR), .sendRet 0#8, .cmd (encode (.write 1#32 1#8))]
    (uninit es).params.legal ∧ (uninit es).blk.ph = .idle ∧ (uninit es).blk.guard = .flushing ∧ (uninit es).events = es := by
  decide

theorem witness_SendReturnFollowsTheCommandInProgress :
    (waiting .flushing .write 8 [.sendRet 0#8]).params.legal ∧ (waiting .flushing .write 8 [.sendRet 0#8]).blk.ph = .sendWait ∧
    (waiting .flushing .write 8 []).blk.opk = .write ∧ (waiting .ready .flush 0 []).blk.opk = .flush ∧
    (waiting .ready .flushR 0 []).blk.opk = .flushR := by decide

theorem witness_SpuriousReturnIsIgnored :
    (idle empty [.sendRet 0#8]).params.legal ∧ (idle empty [.sendRet 0#8]).blk.ph ≠ .sendWait ∧
    (running empty 0#32 0 [.sendRet 0#8]).blk.ph ≠ .sendWait := by decide

theorem witness_WaitForTheReturnNeverEndsByItself :
    let s := waiting .flushing .write 1 [.tick, .cmd 0x010000000000#48, .cmd 0#48]
    s.params.legal ∧ s.blk.ph = .sendWait ∧ NoReturn s.events :=
  ⟨by decide, by decide, by intro e he; simp only [waiting, idle, List.mem_cons, List.not_mem_nil, or_false] at he
                            rcases he with rfl | rfl | rfl <;> exact ⟨by decide, fun _ => by simp⟩⟩

theorem witness_WaitForTheReturnEndsByReset :
    let s := waiting .flushing .write 1 [.reset]
    s.params.legal ∧ s.blk.ph = .sendWait ∧ s.events = [.reset] := by decide

/-! ### Witnesses: packets and reset -/

theorem witness_ImageHasTheWireLayout :
    (pk 0#8 [0#8, 0#8]).data.length = (Params.mk 2 .msbFirst).cap ∧ (Params.mk 2 .lsbFirst).srcIdOrder = .lsbFirst ∧
    (pk 0#8 (List.replicate 31 0#8)).data.length = (Params.mk 31 .msbFirst).cap := by decide

theorem witness_SequenceCounterCountsRotatingSends :
    let es := (List.replicate 2 [Event.cmd (encode .flushR), Event.sendRet 0#8]).flatten
    let fs := (List.replicate 2 [Event.cmd (encode .flush), Event.sendRet 0#8]).flatten
    (idle empty es).params.legal ∧ (idle empty es).blk.ph = .idle ∧ (idle empty es).events = es ∧ (idle empty fs).events = fs := by
  decide

theorem witness_ResetEventAbandonsEverything :
    let s := waiting .flushing .write 1 [.reset, .sendRet 0#8]
    s.params.legal ∧ s.events = [.reset, .sendRet 0#8] := by decide

theorem witness_ValuesFromBeforeInitNeverReachAnOutput :
    let s := uninit [.cmd (encode (.init 5#16)), .tick]
    NoReset [Event.tick] ∧ s.blk.ph = .idle ∧ (idle empty []).blk.ph = .idle ∧
    s.events = [.cmd (encode (.init 5#16)), .tick] ∧ nextIs (runSteps 2 s) (fun _ => true) = true := by decide

/-! ### Witnesses: rules over every step -/

theorem witness_StepKeepsTheInvariant :
    PackerInv (running (pk 3#8 [0xA0#8, 0#8]) 0xDEADBEE0#32 28 [.tick]) ∧
    nextIs (step (running (pk 3#8 [0xA0#8, 0#8]) 0xDEADBEE0#32 28 [.tick])) (fun _ => true) = true := by decide

theorem witness_InvariantStepNeverStops : PackerInv (idle empty []) ∧ PackerInv (uninit []) ∧
    PackerInv (waiting .flushing .write 1 []) := ⟨by decide, by decide, by decide⟩

theorem witness_HistoryOnlyGrows : nextIs (step (idle empty [.cmd (encode .flush)])) (fun _ => true) = true := by decide

theorem witness_PhaseTransitionsAreTheTable :
    nextIs (step (uninit [.cmd (encode (.init 5#16))])) (fun t => t.blk.ph == .idle) = true ∧
    nextIs (step (idle empty [.cmd (encode (.write 1#32 1#8))])) (fun t => t.blk.ph == .run) = true ∧
    nextIs (step (idle empty [.cmd (encode .flush)])) (fun t => t.blk.ph == .sendWait) = true ∧
    nextIs (step (idle empty [.cmd (encode .flushR)])) (fun t => t.blk.ph == .sendWait) = true ∧
    nextIs (step (running empty 0x80000000#32 1 [])) (fun t => t.blk.ph == .run) = true ∧
    nextIs (step (running (pk 16#8 [0#8, 0#8]) 0#32 1 [.tick])) (fun t => t.blk.ph == .sendWait) = true ∧
    nextIs (step (running empty 0#32 0 [.tick])) (fun t => t.blk.ph == .idle) = true ∧
    nextIs (step (waiting .flushing .write 1 [.sendRet 0#8])) (fun t => t.blk.ph == .run) = true ∧
    nextIs (step (waiting .ready .flush 0 [.sendRet 0#8])) (fun t => t.blk.ph == .idle) = true ∧
    nextIs (step (waiting .ready .flushR 0 [.sendRet 0#8])) (fun t => t.blk.ph == .idle) = true ∧
    nextIs (step (waiting .ready .flushR 0 [.reset])) (fun t => t.blk.ph == .idle) = true ∧
    nextIs (step (waiting .ready .flushR 0 [.tick])) (fun t => t.blk.ph == .sendWait) = true := by decide

theorem witness_GuardIsWrittenByThreeRules :
    nextIs (step (uninit [.cmd (encode (.init 5#16))])) (fun t => t.blk.guard != (uninit []).blk.guard) = true ∧
    nextIs (step (idle empty [.cmd (encode (.write 1#32 1#8))])) (fun t => t.blk.guard != .ready) = true ∧
    nextIs (step (running empty 0#32 0 [.tick])) (fun t => t.blk.guard != .flushing) = true ∧
    nextIs (step (idle empty [.reset])) (fun t => t.blk.guard != .ready) = true := by decide

theorem witness_PacketsAreWrittenByStoreInitAndRotation :
    nextIs (step (running empty 0x80000000#32 1 [.tick])) (fun t => decide (t.blk.pkt .p0 ≠ empty)) = true ∧
    nextIs (step (uninit [.cmd (encode (.init 5#16))])) (fun t => decide (t.blk.pkt .p0 ≠ junk)) = true ∧
    nextIs (step (waiting .ready .flushR 0 [.sendRet 0#8])) (fun t => decide (t.blk.pkt .p1 ≠ junk)) = true ∧
    (running empty 0x80000000#32 1 [.tick]).events.head? ≠ some .reset := by decide

theorem witness_SendsComeFromThreeRules :
    PackerInv (running (pk 16#8 [0#8, 0#8]) 0#32 1 [.tick]) ∧
    nextIs (step (running (pk 16#8 [0#8, 0#8]) 0#32 1 [.tick])) (fun t => decide (sends t.log ≠ [])) = true ∧
    PackerInv (idle empty [.cmd (encode .flush)]) ∧
    nextIs (step (idle empty [.cmd (encode .flush)])) (fun t => decide (sends t.log ≠ [])) = true ∧
    nextIs (step (idle empty [.cmd (encode .flushR)])) (fun t => decide (sends t.log ≠ [])) = true :=
  ⟨by decide, by decide, by decide, by decide, by decide⟩

theorem witness_SentImagesAreCleanAfterInit :
    let s := idle (pk 3#8 [0xA0#8, 0#8]) [.cmd (encode .flush)]
    PackerInv s ∧ s.blk.Initialised ∧
    nextIs (step s) (fun t => decide (sends t.log = sends s.log ++ [[3#8, 0#8, 1#8, 2#8, 0xA0#8, 0#8]])) = true := by decide

theorem witness_GuardTellsInitAndWrite :
    let s := uninit [.cmd (encode (.init 5#16)), .cmd (encode (.write 1#32 1#8))]
    s.blk.guard = .flushing ∧ s.blk.ph = .idle ∧ nextIs (runSteps 2 s) (fun _ => true) = true ∧
    initSince 2 s false = true := by decide

theorem witness_GuardMeaningIsKeptByEveryStep :
    GuardTells (running empty 0#32 0 [.tick]) true ∧ GuardTells (uninit [.cmd (encode (.init 5#16))]) false ∧
    GuardTells (idle empty [.reset]) true ∧
    nextIs (step (running empty 0#32 0 [.tick])) (fun _ => true) = true ∧
    nextIs (step (uninit [.cmd (encode (.init 5#16))])) (fun _ => true) = true ∧
    nextIs (step (idle empty [.reset])) (fun _ => true) = true :=
  ⟨by decide, by decide, by decide, by decide, by decide, by decide⟩

/-! ### Witnesses: WRITE run to completion -/

theorem witness_EngineLeavesRunWithinTheBound :
    let s := running (pk 7#8 [0#8, 0#8]) 0xC0000000#32 2 []
    PackerInv s ∧ s.blk.ph = .run ∧ s.events = [] := by decide

theorem witness_SixTicksAreOneRun :
    let s := running empty 0#32 0 (Line.events .run ++ [.reset])
    PackerInv s ∧ s.events = Line.events .run ++ [.reset] := by decide

theorem witness_WriteCompletesWithinTheBounds :
    PackerInv (idle empty []) ∧ (idle empty []).blk.ph = .idle ∧ (idle empty []).blk.guard = .ready ∧ legalWidth 32#8 := by decide

/-- A run that is busy after each of its first `k` steps, checked step by step. -/
theorem busy_of_check {k : Nat} {s : State}
    (hk : ∀ j ∈ List.range k, nextIs (runSteps (j + 1) s) (fun t => decide (t.blk.ph ≠ .idle)) = true)
    (j : Nat) (u : State) (h0 : 0 < j) (hj : j ≤ k) (h : runSteps j s = .next u) : u.blk.ph ≠ .idle := by
  obtain ⟨i, rfl⟩ : ∃ i, j = i + 1 := ⟨j - 1, by omega⟩
  have e := hk i (List.mem_range.mpr (by omega))
  rw [h] at e
  simpa [nextIs] using e

/-- An idle packer with four bits of room, given a WRITE of eight bits and a schedule. -/
def straddling : State := idle (pk 12#8 [0xAB#8, 0xC0#8])
  [.cmd (encode (.write 0x5F#32 8#8)), .tick, .tick, .cmd (encode .flush), .sendRet 0xEE#8, .tick, .tick]

/-- A WRITE of four bits into an empty packet: accepted, one store, finished. This and the next two meet the premises of
WriteRunsAsTheBitSerialLoop and SendsOfOneWrite, this and the next those of FittingWriteAppendsItsBits. -/
theorem witness_WriteRunsToCompletion :
    ∃ t, WriteRunsToCompletion (idle empty [.cmd (encode (.write 0xA#32 4#8)), .tick, .tick]) t 0xA#32 4#8 ∧
      (idle empty [.cmd (encode (.write 0xA#32 4#8)), .tick, .tick]).blk.active.vbc.toNat + (4#8 : Byte).toNat ≤ 16 :=
  ⟨_, ⟨by decide, by decide, by decide, by decide, ⟨[.tick, .tick], rfl, by decide⟩, 2, rfl, by decide,
    busy_of_check (by decide)⟩, by decide⟩

/-- A packer of capacity 4, the packet four bits short of full. -/
def nearlyFull : State :=
  { idle (pk 28#8 [0xFF#8, 0xFF#8, 0xFF#8, 0xF0#8]) [.cmd (encode (.write 0x5#32 4#8)), .tick, .tick] with
      params := { cap := 4, srcIdOrder := .lsbFirst },
      blk := { (idle (pk 28#8 [0xFF#8, 0xFF#8, 0xFF#8, 0xF0#8]) []).blk with p1 := pk 0#8 [1#8, 2#8, 3#8, 4#8] } }

/-- The exact fit, at the capacity from which one WRITE sends at most once. -/
theorem witness_WriteExactFit :
    ∃ t, WriteRunsToCompletion nearlyFull t 0x5#32 4#8 ∧ 4 ≤ nearlyFull.params.cap ∧
      nearlyFull.blk.active.vbc.toNat + (4#8 : Byte).toNat = nearlyFull.params.capBits :=
  ⟨_, ⟨by decide, by decide, by decide, by decide, ⟨[.tick, .tick], rfl, by decide⟩, 2, rfl, by decide,
    busy_of_check (by decide)⟩, by decide, by decide⟩

/-- A WRITE that overflows in the middle of its value, with a dropped FLUSH and a status byte on the way: the full packet
`10 00 01 02 AB C5` is sent (R35, R78) and the last four bits open the next packet (R40). -/
theorem witness_WriteOverflows :
    ∃ t, WriteRunsToCompletion straddling t 0x5F#32 8#8 ∧
      sends t.log = [[0x10#8, 0x00#8, 0x01#8, 0x02#8, 0xAB#8, 0xC5#8]] ∧
      t.blk.active = { vbc := 4#8, seq := 1#8, sid := 0x0102#16, data := [0xF0#8, 0#8] } :=
  ⟨_, ⟨by decide, by decide, by decide, by decide,
    ⟨[.tick, .tick, .cmd (encode .flush), .sendRet 0xEE#8, .tick, .tick], rfl, by decide⟩, 6, rfl, by decide,
    busy_of_check (by decide)⟩, by decide, by decide⟩

/-- A list of two legal WRITEs, one of them of the largest width. -/
theorem legal_two_writes : LegalWrites [(0xABC#32, 12#8), (0x5#32, 32#8)] := by
  intro x hx
  simp only [List.mem_cons, List.not_mem_nil, or_false] at hx
  rcases hx with rfl | rfl
  · exact ⟨by decide, by decide⟩
  · exact ⟨by decide, by decide⟩

theorem witness_PackedBitsAreTheConcatenation :
    (idle empty []).params.legal ∧ DataSized (idle empty []).params (idle empty []).blk ∧
    (idle empty []).blk.active.Clean (idle empty []).params ∧ LegalWrites [(0xABC#32, 12#8), (0x5#32, 32#8)] :=
  ⟨by decide, by decide, by decide, legal_two_writes⟩

theorem witness_ValidBitCountIsTheTotalWidth :
    (idle empty []).params.legal ∧ (idle empty []).blk.active.vbc = 0#8 ∧ LegalWrites [(0xABC#32, 12#8), (0x5#32, 32#8)] ∧
    totalWidth [] = 0 ∧ totalWidth [(0xABC#32, 12#8), (0x5#32, 32#8)] = 44 :=
  ⟨by decide, by decide, legal_two_writes, by decide, by decide⟩

end Sys2Proof.Tests
end

section
/-! PROOFS. What one step does, as a relation with one constructor per rule (43_guard_and_sequencer.md R98, R103). Every
statement about all steps below is a case split over it. -/

namespace Sys2Proof.Machine

/-- The state after a step that takes the next event, leaves the block `b` and puts out `outs`. -/
def State.after (s : State) (b : Block) (outs : List Output) : State :=
  { s with events := s.events.tail, blk := b, log := s.log ++ outs }

@[simp] theorem State.after_params (s : State) (b : Block) (outs : List Output) : (s.after b outs).params = s.params := rfl
@[simp] theorem State.after_blk (s : State) (b : Block) (outs : List Output) : (s.after b outs).blk = b := rfl
@[simp] theorem State.after_events (s : State) (b : Block) (outs : List Output) :
    (s.after b outs).events = s.events.tail := rfl
@[simp] theorem State.after_log (s : State) (b : Block) (outs : List Output) : (s.after b outs).log = s.log ++ outs := rfl

/-- The engine has the turn: a tick is next, or nothing is waiting (R104, log 6). -/
abbrev EngineTurn (s : State) : Prop := s.events = [] ∨ s.events.head? = some .tick

/-- The next event neither resets the block nor is an INIT that is accepted. -/
def KeepsInitRecord (s : State) : Prop :=
  s.events.head? ≠ some .reset ∧
  ∀ w sid, s.events.head? = some (.cmd w) → decode w = .instr (.init sid) → s.blk.ph ≠ .idle

theorem EngineTurn.keepsInitRecord {s : State} (h : EngineTurn s) : KeepsInitRecord s := by
  rcases h with h | h
  · exact ⟨by simp [h], by simp [h]⟩
  · exact ⟨by simp [h], by simp [h]⟩

theorem keepsInitRecord_of_cmd {s : State} {w : CmdWord} (h : s.events.head? = some (.cmd w))
    (hd : ∀ sid, decode w = .instr (.init sid) → s.blk.ph ≠ .idle) : KeepsInitRecord s := by
  refine ⟨by simp [h], fun w' sid hw' => ?_⟩
  obtain rfl : w = w' := by simpa [h] using hw'
  exact hd sid

theorem keepsInitRecord_of_sendRet {s : State} {st : Byte} (h : s.events.head? = some (.sendRet st)) :
    KeepsInitRecord s := ⟨by simp [h], by simp [h]⟩

/-- `StepRule s t`: one rule of the packer leads from `s` to `t`. -/
inductive StepRule (s : State) : State → Prop where
  /-- The reset event (R130). -/
  | reset (he : s.events.head? = some .reset) :
      StepRule s { s.after (Block.drawn s.params.cap s.draws) [] with draws := s.draws + 1 }
  /-- A rejected command, a spurious return (R107) or a tick that is not enabled (log 7): the block is untouched. -/
  | unchanged (outs : List Output) (hk : KeepsInitRecord s)
      (ho : outs = [] ∨ ∃ c, c ≠ .ok ∧ outs = [.accept c]) : StepRule s (s.after s.blk outs)
  /-- INIT (R70). -/
  | init (w : CmdWord) (sid : SourceId) (he : s.events.head? = some (.cmd w)) (hd : decode w = .instr (.init sid))
      (hi : s.blk.ph = .idle) : StepRule s (s.after (initBlock s.params.cap sid s.blk) [.accept .ok])
  /-- The acceptance of a WRITE (R76). -/
  | write (w : CmdWord) (v : Value) (n : Byte) (he : s.events.head? = some (.cmd w))
      (hd : decode w = .instr (.write v n)) (hi : s.blk.ph = .idle) (hg : s.blk.guard = .ready) (hn : legalWidth n) :
      StepRule s (s.after (acceptWriteBlock v n s.blk) [.accept .ok])
  /-- FLUSH (R90). -/
  | flush (w : CmdWord) (he : s.events.head? = some (.cmd w)) (hd : decode w = .instr .flush) (hi : s.blk.ph = .idle) :
      StepRule s (s.after { s.blk with opk := .flush, ph := .sendWait }
        [.send (image s.params s.blk.active), .accept .ok])
  /-- FLUSH.R (R91). -/
  | flushR (w : CmdWord) (he : s.events.head? = some (.cmd w)) (hd : decode w = .instr .flushR) (hi : s.blk.ph = .idle) :
      StepRule s (s.after { s.blk with opk := .flushR, ph := .sendWait }
        [.send (image s.params s.blk.active), .accept .ok])
  /-- The finish of a WRITE (R80). -/
  | finish (ht : EngineTurn s) (hr : s.blk.ph = .run) (h0 : s.blk.rem.val = 0) :
      StepRule s (s.after { s.blk with guard := .ready, ph := .idle } [])
  /-- The overflow path of a WRITE (R78). -/
  | overflow (ht : EngineTurn s) (hr : s.blk.ph = .run) (h0 : 0 < s.blk.rem.val)
      (hf : s.blk.active.vbc.toNat = s.params.capBits) :
      StepRule s (s.after { s.blk with ph := .sendWait } [.send (image s.params s.blk.active)])
  /-- A store step of a WRITE (R79). -/
  | store (old : Byte) (ht : EngineTurn s) (hr : s.blk.ph = .run) (h0 : 0 < s.blk.rem.val)
      (hf : s.blk.active.vbc.toNat ≠ s.params.capBits)
      (ho : Memory.read s.params.cap s.blk.active.data (byteIndex s.blk.active.vbc) = some old) :
      StepRule s (s.after (storeBlock s.blk old) [])
  /-- The return of the collaborator (R106). -/
  | sendRet (st : Byte) (he : s.events.head? = some (.sendRet st)) (hw : s.blk.ph = .sendWait) :
      StepRule s (s.after (sendRetBlock s.params.cap s.blk) [])

theorem StepRule.skipped {s : State} (hk : KeepsInitRecord s) : StepRule s { s with events := s.events.tail } := by
  simpa [State.after] using StepRule.unchanged [] hk (.inl rfl)

theorem StepRule.rejected {s : State} {c : AcceptCode} (hk : KeepsInitRecord s) (hc : c ≠ .ok) :
    StepRule s (State.put (.accept c) { s with events := s.events.tail }) :=
  .unchanged [.accept c] hk (.inr ⟨c, hc, rfl⟩)

/-- A rejected INIT was one that came while busy. -/
theorem busy_of_exec_init_rejected {sid : SourceId} {s : State} {c : AcceptCode} (hc : c ≠ .ok)
    (h : exec (.init sid) s = .next (s.put (.accept c))) : s.blk.ph ≠ .idle := by
  intro hi
  simp only [exec, execInit, whenIdle_idle hi] at h
  have hlog := congrArg State.log (acceptOk_next h)
  exact hc (by simpa using hlog)

theorem stepRule_of_takeCmd {s t : State} {w : CmdWord} (he : s.events.head? = some (.cmd w))
    (h : takeCmd w { s with events := s.events.tail } = .next t) : StepRule s t := by
  unfold takeCmd at h
  split at h
  · next op hd =>
    rw [reject_next h]
    exact .rejected (keepsInitRecord_of_cmd he (by simp [hd])) (by decide)
  · next i hd =>
    rcases exec_cases h with ⟨c, hc, rfl⟩ | ⟨hi, ⟨sid, rfl, rfl⟩ | ⟨v, n, rfl, hg, hn, rfl⟩ | ⟨rfl, rfl⟩ | ⟨rfl, rfl⟩⟩
    · refine .rejected (keepsInitRecord_of_cmd he fun sid hsid => ?_) hc
      obtain rfl : i = .init sid := by simpa [hd] using hsid
      exact busy_of_exec_init_rejected (s := { s with events := s.events.tail }) hc h
    · exact .init w sid he hd hi
    · exact .write w v n he hd hi hg hn
    · simpa [startFlush, emitSend, State.put, State.after] using StepRule.flush w he hd hi
    · simpa [startFlush, emitSend, State.put, State.after] using StepRule.flushR w he hd hi

theorem stepRule_of_takeTick {s t : State} (ht : EngineTurn s)
    (h : takeTick { s with events := s.events.tail } = .next t) : StepRule s t := by
  unfold takeTick at h
  split at h
  · next hr =>
    rcases engineStep_cases h with ⟨h0, rfl⟩ | ⟨h0, hf, rfl⟩ | ⟨h0, hf, old, ho, rfl⟩
    · simpa [State.after] using StepRule.finish ht hr h0
    · exact .overflow ht hr h0 hf
    · simpa [State.after] using StepRule.store old ht hr h0 hf ho
  · obtain rfl := Host.Outcome.next.inj h
    exact .skipped ht.keepsInitRecord

theorem stepRule_of_takeSendRet {s t : State} {st : Byte} (he : s.events.head? = some (.sendRet st))
    (h : takeSendRet st { s with events := s.events.tail } = .next t) : StepRule s t := by
  unfold takeSendRet at h
  split at h
  · next hw =>
    obtain rfl := Host.Outcome.next.inj h
    simpa [State.after] using StepRule.sendRet st he hw
  · obtain rfl := Host.Outcome.next.inj h
    exact .skipped (keepsInitRecord_of_sendRet he)

/-- Every step is one of the rules. -/
theorem stepRule_of_step {s t : State} (h : step s = .next t) : StepRule s t := by
  obtain ⟨-, s', hp, hb, hl, hd, he, hcases⟩ := step_cases h
  obtain rfl : s' = { s with events := s.events.tail } := by
    cases s; cases s'; simp_all
  rcases hcases with ⟨hs, ht⟩ | ⟨es, hs, ht⟩ | ⟨w, es, hs, ht⟩ | ⟨es, hs, ht⟩ | ⟨st, es, hs, ht⟩
  · exact stepRule_of_takeTick (.inl hs) ht
  · obtain rfl := Host.Outcome.next.inj ht
    simpa [State.after] using StepRule.reset (s := s) (by simp [hs])
  · exact stepRule_of_takeCmd (by simp [hs]) ht
  · exact stepRule_of_takeTick (.inr (by simp [hs])) ht
  · exact stepRule_of_takeSendRet (by simp [hs]) ht

end Sys2Proof.Machine
end

section
/-! PROOFS. The bits a store step leaves (41_write_data.md R79) and the facts of the prepared packet (10_state.md R24). -/

namespace Sys2Proof.Machine

/-! ### What a store does to the bits -/

/-- Bit by bit, a store ORs the accumulator's top bits into positions `vbc .. vbc+n-1` and keeps the others (R79). -/
theorem Packet.bit_storePacket {p : Packet} {old : Byte} (hold : p.data[byteIndex p.vbc]? = some old) (acc : Value)
    {n : Nat} (hn : n + bitOffset p.vbc ≤ 8) (pos : Nat) :
    (storePacket p old acc n).bit pos =
      if p.vbc.toNat ≤ pos ∧ pos < p.vbc.toNat + n then p.bit pos || acc.getLsbD (31 - (pos - p.vbc.toNat))
      else p.bit pos := by
  have hv := vbc_eq_index_offset p.vbc
  obtain ⟨hlen, hget⟩ := List.getElem?_eq_some_iff.mp hold
  by_cases hb : pos / 8 = byteIndex p.vbc
  · have hnew : (storePacket p old acc n).bit pos =
        (p.bit pos || (chunk acc n <<< (8 - bitOffset p.vbc - n)).getLsbD (7 - pos % 8)) := by
      simp [Packet.bit, storePacket, Memory.write, orChunk, hb, hlen, hget]
    rw [hnew, BitVec.getLsbD_shiftLeft, chunk_getLsbD acc (by omega)]
    by_cases hin : p.vbc.toNat ≤ pos ∧ pos < p.vbc.toNat + n
    · have hidx : 32 - n + (7 - pos % 8 - (8 - bitOffset p.vbc - n)) = 31 - (pos - p.vbc.toNat) := by omega
      rw [if_pos hin, hidx]
      have h1 : 7 - pos % 8 < 8 := by omega
      have h2 : ¬ 7 - pos % 8 < 8 - bitOffset p.vbc - n := by omega
      have h3 : 7 - pos % 8 - (8 - bitOffset p.vbc - n) < n := by omega
      simp [h1, h2, h3]
    · have hout : 7 - pos % 8 < 8 - bitOffset p.vbc - n ∨ n ≤ 7 - pos % 8 - (8 - bitOffset p.vbc - n) := by omega
      rw [if_neg hin]
      rcases hout with h | h
      · simp [h]
      · simp [Nat.not_lt.mpr h]
  · have hout : ¬ (p.vbc.toNat ≤ pos ∧ pos < p.vbc.toNat + n) := by omega
    rw [if_neg hout]
    simp only [Packet.bit, storePacket, Memory.write, List.getElem?_set_ne (Ne.symm hb)]

/-- A store into a clean packet with room leaves it clean (R23, R24). -/
theorem Packet.Clean.storePacket {ps : Params} {p : Packet} (hc : p.Clean ps) (hl : ps.legal) {old : Byte}
    (hold : p.data[byteIndex p.vbc]? = some old) (hroom : p.vbc.toNat < ps.capBits) (acc : Value) {rem : Fin 33}
    (hrem : 0 < rem.val) : (storePacket p old acc (chunkLen p.vbc rem)).Clean ps := by
  obtain ⟨hvbc, hfit⟩ := advanceVbc_toNat hl (rem := rem) hroom
  obtain ⟨-, hn, -⟩ := chunkLen_bounds p.vbc hrem
  have hnew : (Machine.storePacket p old acc (chunkLen p.vbc rem)).vbc.toNat = p.vbc.toNat + chunkLen p.vbc rem := hvbc
  refine ⟨hnew ▸ hfit, fun pos hpos hge => ?_⟩
  rw [hnew] at hge
  rw [Packet.bit_storePacket hold acc hn, if_neg (by omega)]
  exact hc.2 pos hpos (by omega)

theorem Memory.getElem?_of_read {cap : Nat} {m : Memory} {j : Nat} {v : Byte} (h : Memory.read cap m j = some v) :
    m[j]? = some v := by
  unfold Memory.read at h
  split at h
  · exact h
  · cases h

/-! ### The accumulator -/

/-- The accumulator an accepted WRITE loads is aligned (R17, R76). -/
theorem getLsbD_leftAlign_low (value : Value) {width : Byte} {k : Nat} (h : k + width.toNat < 32) :
    (leftAlign value width).getLsbD k = false := by
  have hk : k < 32 - width.toNat := by omega
  simp [leftAlign, BitVec.getLsbD_shiftLeft, hk]

theorem accAligned_acceptWriteBlock (value : Value) {width : Byte} (hw : legalWidth width) (b : Block) :
    AccAligned (acceptWriteBlock value width b) := by
  intro k _ hlow
  have hrem : (acceptWriteBlock value width b).rem.val = width.toNat := remOfWidth_val hw
  exact getLsbD_leftAlign_low value (hrem ▸ hlow)

/-- A store shifts the accumulator and the count together, so it stays aligned (R79). -/
theorem AccAligned.storeBlock {b : Block} (h : AccAligned b) (old : Byte) (hrem : 0 < b.rem.val) :
    AccAligned (storeBlock b old) := by
  intro k hk hlow
  obtain ⟨-, -, hn⟩ := chunkLen_bounds b.active.vbc hrem
  have hacc : (Machine.storeBlock b old).acc = b.acc <<< chunkLen b.active.vbc b.rem := rfl
  have hval : (Machine.storeBlock b old).rem.val = b.rem.val - chunkLen b.active.vbc b.rem := advanceRem_val _ _
  rw [hval] at hlow
  rw [hacc, BitVec.getLsbD_shiftLeft]
  by_cases hs : k < chunkLen b.active.vbc b.rem
  · simp [hs]
  · simp [h (k - chunkLen b.active.vbc b.rem) (by omega) (by omega)]

/-! ### The blocks the rules leave, register by register -/

@[simp] theorem Block.drawn_guard (cap n : Nat) : (Block.drawn cap n).guard = .flushing := rfl
@[simp] theorem Block.drawn_ph (cap n : Nat) : (Block.drawn cap n).ph = .idle := rfl

@[simp] theorem initBlock_guard (cap : Nat) (sid : SourceId) (b : Block) : (initBlock cap sid b).guard = .ready := rfl
@[simp] theorem initBlock_ph (cap : Nat) (sid : SourceId) (b : Block) : (initBlock cap sid b).ph = b.ph := rfl

@[simp] theorem acceptWriteBlock_guard (v : Value) (n : Byte) (b : Block) : (acceptWriteBlock v n b).guard = .flushing := rfl
@[simp] theorem acceptWriteBlock_ph (v : Value) (n : Byte) (b : Block) : (acceptWriteBlock v n b).ph = .run := rfl
@[simp] theorem acceptWriteBlock_opk (v : Value) (n : Byte) (b : Block) : (acceptWriteBlock v n b).opk = .write := rfl

@[simp] theorem storeBlock_seq (b : Block) (old : Byte) : (storeBlock b old).seq = b.seq := by simp [storeBlock]
@[simp] theorem storeBlock_srcId (b : Block) (old : Byte) : (storeBlock b old).srcId = b.srcId := by simp [storeBlock]
@[simp] theorem storeBlock_guard (b : Block) (old : Byte) : (storeBlock b old).guard = b.guard := by simp [storeBlock]
@[simp] theorem storeBlock_ph (b : Block) (old : Byte) : (storeBlock b old).ph = b.ph := by simp [storeBlock]
@[simp] theorem storeBlock_opk (b : Block) (old : Byte) : (storeBlock b old).opk = b.opk := by simp [storeBlock]
theorem storeBlock_pkt_act (b : Block) (old : Byte) : (storeBlock b old).pkt b.act =
    storePacket b.active old b.acc (chunkLen b.active.vbc b.rem) :=
  Block.pkt_setPkt_same b b.act _
theorem storeBlock_pkt_other (b : Block) (old : Byte) : (storeBlock b old).pkt b.act.other = b.pkt b.act.other :=
  Block.pkt_setPkt_other b b.act _
theorem storeBlock_active (b : Block) (old : Byte) : (storeBlock b old).active =
    storePacket b.active old b.acc (chunkLen b.active.vbc b.rem) := by
  have hact : (storeBlock b old).act = b.act := by simp only [Block.act, storeBlock_seq]
  rw [Block.active, hact, storeBlock_pkt_act]

theorem sendRetBlock_write {b : Block} (h : b.opk = .write) (cap : Nat) :
    sendRetBlock cap b = { rotate cap b with ph := .run } := by simp [sendRetBlock, h]
theorem sendRetBlock_flush {b : Block} (h : b.opk = .flush) (cap : Nat) :
    sendRetBlock cap b = { b with ph := .idle } := by simp [sendRetBlock, h]
theorem sendRetBlock_flushR {b : Block} (h : b.opk = .flushR) (cap : Nat) :
    sendRetBlock cap b = { rotate cap b with ph := .idle } := by simp [sendRetBlock, h]

@[simp] theorem sendRetBlock_guard (cap : Nat) (b : Block) : (sendRetBlock cap b).guard = b.guard := by
  cases h : b.opk <;> simp [sendRetBlock, h]
@[simp] theorem sendRetBlock_opk (cap : Nat) (b : Block) : (sendRetBlock cap b).opk = b.opk := by
  cases h : b.opk <;> simp [sendRetBlock, h]
theorem sendRetBlock_ph (cap : Nat) (b : Block) :
    (sendRetBlock cap b).ph = if b.opk = .write then .run else .idle := by
  cases h : b.opk <;> simp [sendRetBlock, h]

/-! ### The size of the data arrays (R14) -/

theorem dataSized_iff {ps : Params} {b : Block} : DataSized ps b ↔ ∀ i, (b.pkt i).data.length = ps.cap :=
  ⟨fun ⟨h0, h1⟩ i => by cases i <;> assumption, fun h => ⟨h .p0, h .p1⟩⟩

theorem dataSized_drawn (ps : Params) (n : Nat) : DataSized ps (Block.drawn ps.cap n) :=
  ⟨by simp [Block.drawn, Packet.drawn], by simp [Block.drawn, Packet.drawn]⟩

theorem DataSized.setPkt {ps : Params} {b : Block} (h : DataSized ps b) (i : PacketId) {p : Packet}
    (hp : p.data.length = ps.cap) : DataSized ps (b.setPkt i p) := by
  obtain ⟨h0, h1⟩ := h
  cases i
  · exact ⟨hp, h1⟩
  · exact ⟨h0, hp⟩

theorem DataSized.rotate {ps : Params} {b : Block} (h : DataSized ps b) : DataSized ps (rotate ps.cap b) :=
  DataSized.setPkt (b := bumpSeq b) h _ (Memory.length_zeroed _)

theorem DataSized.storeBlock {ps : Params} {b : Block} (h : DataSized ps b) (old : Byte) :
    DataSized ps (storeBlock b old) := by
  have hact : b.active.data.length = ps.cap := dataSized_iff.mp h b.act
  exact DataSized.setPkt h b.act (by simpa [storePacket] using hact)

theorem DataSized.sendRetBlock {ps : Params} {b : Block} (h : DataSized ps b) :
    DataSized ps (sendRetBlock ps.cap b) := by
  cases hk : b.opk with
  | write => rw [sendRetBlock_write hk]; exact h.rotate
  | flush => rw [sendRetBlock_flush hk]; exact h
  | flushR => rw [sendRetBlock_flushR hk]; exact h.rotate

/-! ### The prepared active packet (R24) -/

/-- A prepared packet is clean (R38). -/
theorem clean_prepared (ps : Params) (seq : SeqNum) (sid : SourceId) :
    Packet.Clean ps { vbc := 0#8, seq := seq, sid := sid, data := Memory.zeroed ps.cap } :=
  ⟨Nat.zero_le _, fun pos _ _ => Packet.bit_zeroed _ _ _ _ pos⟩

/-- R24 speaks of the counter, the identifier and the two packets only. -/
theorem PreparedActive.congr {ps : Params} {b c : Block} (h : PreparedActive ps b) (hs : c.seq = b.seq)
    (hi : c.srcId = b.srcId) (h0 : c.p0 = b.p0) (h1 : c.p1 = b.p1) : PreparedActive ps c := by
  rw [PreparedActive, Block.active_congr hs h0 h1, hs, hi]
  exact h

theorem preparedActive_initBlock (ps : Params) (sid : SourceId) (b : Block) :
    PreparedActive ps (initBlock ps.cap sid b) :=
  ⟨rfl, rfl, clean_prepared ps 0#8 sid⟩

theorem preparedActive_rotate (ps : Params) (b : Block) : PreparedActive ps (rotate ps.cap b) := by
  rw [PreparedActive, rotate_active]
  exact ⟨(rotate_seq_val ps.cap b).symm, (rotate_srcId ps.cap b).symm, clean_prepared ps _ _⟩

theorem PreparedActive.storeBlock {ps : Params} {b : Block} (h : PreparedActive ps b) (hl : ps.legal) {old : Byte}
    (hread : Memory.read ps.cap b.active.data (byteIndex b.active.vbc) = some old) (hrem : 0 < b.rem.val)
    (hf : b.active.vbc.toNat ≠ ps.capBits) : PreparedActive ps (storeBlock b old) := by
  obtain ⟨hseq, hsid, hclean⟩ := h
  have hroom : b.active.vbc.toNat < ps.capBits := lt_of_le_of_ne hclean.1 hf
  rw [PreparedActive, storeBlock_active, storeBlock_seq, storeBlock_srcId]
  exact ⟨hseq, hsid, hclean.storePacket hl (Memory.getElem?_of_read hread) hroom b.acc hrem⟩

/-- A return keeps the prepared active packet, or prepares it anew (R106). -/
theorem PreparedActive.sendRetBlock {ps : Params} {b : Block} (h : b.opk = .flush → PreparedActive ps b) :
    PreparedActive ps (sendRetBlock ps.cap b) := by
  cases hk : b.opk with
  | write =>
    rw [sendRetBlock_write hk]
    exact (preparedActive_rotate ps b).congr rfl rfl rfl rfl
  | flush =>
    rw [sendRetBlock_flush hk]
    exact (h hk).congr rfl rfl rfl rfl
  | flushR =>
    rw [sendRetBlock_flushR hk]
    exact (preparedActive_rotate ps b).congr rfl rfl rfl rfl

end Sys2Proof.Machine
end

section
/-! PROOFS. The two invariants every step keeps: `PackerInv` (R14, R17, R20, R23, R24) and `GuardTells` (R26). -/

namespace Sys2Proof.Machine

theorem Guard.ne_ready {g : Guard} : g ≠ .ready ↔ g = .flushing := by cases g <;> decide

/-! ### The invariant on the block -/

/-- A block at `PH = IDLE` meets the invariant when its arrays are sized and, if `GUARD = READY`, it is prepared. -/
theorem blockInv_idle {ps : Params} {b : Block} (hi : b.ph = .idle) (hd : DataSized ps b)
    (hp : b.guard = .ready → PreparedActive ps b) : BlockInv ps b := by
  have hw : ¬ b.Writing := fun h => h.1 hi
  refine ⟨hd, ⟨by simp [hi], fun h => absurd h hw⟩, fun h => hp (h.resolve_right hw), fun h => absurd h hw, by simp [hi]⟩

/-- A block at `PH = RUN` meets the invariant when a guarded WRITE is in progress on a prepared packet. -/
theorem blockInv_run {ps : Params} {b : Block} (hr : b.ph = .run) (hk : b.opk = .write) (hg : b.guard = .flushing)
    (hd : DataSized ps b) (hp : PreparedActive ps b) (ha : AccAligned b) : BlockInv ps b :=
  ⟨hd, ⟨fun _ => hk, fun _ => hg⟩, fun _ => hp, fun _ => ha, by simp [hr]⟩

/-- A block that waits for the return of a FLUSH or a FLUSH.R. -/
theorem blockInv_flushing {ps : Params} {b : Block} (hr : b.ph = .sendWait) (hk : b.opk ≠ .write) (hd : DataSized ps b)
    (hp : b.guard = .ready → PreparedActive ps b) : BlockInv ps b := by
  have hw : ¬ b.Writing := fun h => hk h.2
  exact ⟨hd, ⟨by simp [hr], fun h => absurd h hw⟩, fun h => hp (h.resolve_right hw), fun h => absurd h hw,
    fun _ h => absurd h hk⟩

theorem BlockInv.dataSized {ps : Params} {b : Block} (h : BlockInv ps b) : DataSized ps b := h.1

/-- What the invariant says of a WRITE in progress. -/
theorem BlockInv.writing {ps : Params} {b : Block} (h : BlockInv ps b) (hw : b.Writing) :
    b.guard = .flushing ∧ DataSized ps b ∧ PreparedActive ps b ∧ AccAligned b := by
  obtain ⟨hd, ⟨-, hg⟩, hp, ha, -⟩ := h
  exact ⟨hg hw, hd, hp (.inr hw), ha hw⟩

/-- `PH = RUN` only in a WRITE (R20). -/
theorem BlockInv.writing_of_run {ps : Params} {b : Block} (h : BlockInv ps b) (hr : b.ph = .run) : b.Writing := by
  obtain ⟨-, ⟨hk, -⟩, -, -, -⟩ := h
  exact ⟨by simp [hr], hk hr⟩

/-- What the invariant says when `GUARD = READY`. -/
theorem BlockInv.prepared_of_ready {ps : Params} {b : Block} (h : BlockInv ps b) (hg : b.guard = .ready) :
    PreparedActive ps b := by
  obtain ⟨-, -, hp, -, -⟩ := h
  exact hp (.inl hg)

/-- The block after a reset, whatever the free draws are (R28). -/
theorem blockInv_drawn (ps : Params) (n : Nat) : BlockInv ps (Block.drawn ps.cap n) :=
  blockInv_idle rfl (dataSized_drawn ps n) (by simp)

theorem BlockInv.initBlock {ps : Params} {b : Block} (h : BlockInv ps b) (hi : b.ph = .idle) (sid : SourceId) :
    BlockInv ps (initBlock ps.cap sid b) :=
  blockInv_idle hi ⟨Memory.length_zeroed _, h.dataSized.2⟩ fun _ => preparedActive_initBlock ps sid b

theorem BlockInv.acceptWriteBlock {ps : Params} {b : Block} (h : BlockInv ps b) (hg : b.guard = .ready) (v : Value)
    {n : Byte} (hn : legalWidth n) : BlockInv ps (acceptWriteBlock v n b) :=
  blockInv_run rfl rfl rfl h.dataSized ((h.prepared_of_ready hg).congr rfl rfl rfl rfl) (accAligned_acceptWriteBlock v hn b)

theorem BlockInv.startFlush {ps : Params} {b : Block} (h : BlockInv ps b) {k : Opk} (hk : k ≠ .write) :
    BlockInv ps { b with opk := k, ph := .sendWait } :=
  blockInv_flushing rfl hk h.dataSized fun hg => (h.prepared_of_ready hg).congr rfl rfl rfl rfl

theorem BlockInv.finish {ps : Params} {b : Block} (h : BlockInv ps b) (hr : b.ph = .run) :
    BlockInv ps { b with guard := .ready, ph := .idle } := by
  obtain ⟨-, hd, hp, -⟩ := h.writing (h.writing_of_run hr)
  exact blockInv_idle rfl hd fun _ => hp.congr rfl rfl rfl rfl

theorem BlockInv.overflow {ps : Params} {b : Block} (h : BlockInv ps b) (hr : b.ph = .run) (h0 : 0 < b.rem.val)
    (hf : b.active.vbc.toNat = ps.capBits) : BlockInv ps { b with ph := .sendWait } := by
  obtain ⟨hg, hd, hp, ha⟩ := h.writing (h.writing_of_run hr)
  have hact : Block.active { b with ph := .sendWait } = b.active := Block.active_congr rfl rfl rfl
  exact ⟨hd, ⟨by simp, fun _ => hg⟩, fun _ => hp.congr rfl rfl rfl rfl, fun _ => ha, fun _ _ => ⟨hact ▸ hf, h0⟩⟩

theorem BlockInv.storeBlock {ps : Params} {b : Block} (h : BlockInv ps b) (hl : ps.legal) (hr : b.ph = .run)
    (h0 : 0 < b.rem.val) (hf : b.active.vbc.toNat ≠ ps.capBits) {old : Byte}
    (ho : Memory.read ps.cap b.active.data (byteIndex b.active.vbc) = some old) : BlockInv ps (storeBlock b old) := by
  have hw := h.writing_of_run hr
  obtain ⟨hg, hd, hp, ha⟩ := h.writing hw
  exact blockInv_run (by simpa using hr) (by simpa using hw.2) (by simpa using hg) (hd.storeBlock old)
    (hp.storeBlock hl ho h0 hf) (ha.storeBlock old h0)

theorem BlockInv.sendRetBlock {ps : Params} {b : Block} (h : BlockInv ps b) (hs : b.ph = .sendWait) :
    BlockInv ps (sendRetBlock ps.cap b) := by
  have hph := sendRetBlock_ph ps.cap b
  by_cases hk : b.opk = .write
  · obtain ⟨hg, hd, hp, ha⟩ := h.writing ⟨by simp [hs], hk⟩
    refine blockInv_run (hph.trans (if_pos hk)) (by simpa using hk) (by simpa using hg) hd.sendRetBlock
      (PreparedActive.sendRetBlock fun _ => hp) ?_
    rw [sendRetBlock_write hk]
    simpa [AccAligned] using ha
  · refine blockInv_idle (hph.trans (if_neg hk)) h.dataSized.sendRetBlock fun hg => ?_
    exact PreparedActive.sendRetBlock fun _ => h.prepared_of_ready (by simpa using hg)

/-- Settles O35, rule by rule. -/
theorem stepKeepsTheInvariant : Obligations.StepKeepsTheInvariant := by
  intro s t ⟨hl, h⟩ hstep
  cases stepRule_of_step hstep with
  | reset _ => exact ⟨hl, blockInv_drawn s.params s.draws⟩
  | unchanged outs _ _ => exact ⟨hl, h⟩
  | init w sid _ _ hi => exact ⟨hl, h.initBlock hi sid⟩
  | write w v n _ _ _ hg hn => exact ⟨hl, h.acceptWriteBlock hg v hn⟩
  | flush w _ _ _ => exact ⟨hl, h.startFlush (by decide)⟩
  | flushR w _ _ _ => exact ⟨hl, h.startFlush (by decide)⟩
  | finish _ hr _ => exact ⟨hl, h.finish hr⟩
  | overflow _ hr h0 hf => exact ⟨hl, h.overflow hr h0 hf⟩
  | store old _ hr h0 hf ho => exact ⟨hl, h.storeBlock hl hr h0 hf ho⟩
  | sendRet st _ hs => exact ⟨hl, h.sendRetBlock hs⟩

/-! ### The record of INIT -/

theorem initAfter_reset {s : State} (h : s.events.head? = some .reset) (before : Bool) : initAfter s before = false := by
  obtain ⟨es, he⟩ := List.head?_eq_some_iff.mp h
  simp [initAfter, he]

theorem initAfter_init {s : State} {w : CmdWord} {sid : SourceId} (h : s.events.head? = some (.cmd w))
    (hd : decode w = .instr (.init sid)) (hi : s.blk.ph = .idle) (before : Bool) : initAfter s before = true := by
  obtain ⟨es, he⟩ := List.head?_eq_some_iff.mp h
  simp [initAfter, he, hd, hi]

theorem KeepsInitRecord.initAfter_eq {s : State} (h : KeepsInitRecord s) (before : Bool) :
    initAfter s before = before := by
  obtain ⟨hr, hc⟩ := h
  unfold initAfter
  split
  · next he => exact absurd (by simp [he]) hr
  · next w es he =>
    split
    · next sid hd => exact if_neg (hc w sid (by simp [he]) hd)
    · rfl
  · rfl

/-! ### What `GUARD` says -/

/-- At `PH = IDLE` only the record of INIT matters. -/
theorem guardTells_idle {s : State} {initialised : Bool} (hi : s.blk.ph = .idle)
    (hg : s.blk.guard = .flushing ↔ initialised = false) : GuardTells s initialised := by
  have hw : ¬ s.blk.Writing := fun h => h.1 hi
  exact ⟨by simp [hg, hw], fun h => absurd h hw, by simp [hi]⟩

/-- During a WRITE an INIT has executed and `GUARD = FLUSHING`. -/
theorem guardTells_writing {s : State} (hw : s.blk.Writing) (hg : s.blk.guard = .flushing) : GuardTells s true :=
  ⟨⟨fun _ => .inr hw, fun _ => hg⟩, fun _ => rfl, fun _ => hw.2⟩

/-- `GuardTells` looks at `GUARD`, at whether a WRITE is in progress and at the rule for `PH = RUN` only. -/
theorem GuardTells.congr {s t : State} {initialised : Bool} (h : GuardTells s initialised)
    (hg : t.blk.guard = s.blk.guard) (hw : t.blk.Writing ↔ s.blk.Writing) (hr : t.blk.ph = .run → t.blk.opk = .write) :
    GuardTells t initialised := by
  obtain ⟨hguard, hinit, -⟩ := h
  exact ⟨by rw [hg, hw]; exact hguard, fun h => hinit (hw.mp h), hr⟩

/-- The return of the collaborator ends a FLUSH or a FLUSH.R and lets a WRITE go on, so a WRITE is in progress as before. -/
theorem writing_sendRetBlock {b : Block} (hs : b.ph = .sendWait) (cap : Nat) :
    (sendRetBlock cap b).Writing ↔ b.Writing := by
  by_cases hk : b.opk = .write <;> simp [Block.Writing, sendRetBlock_ph, hk, hs]

/-- One rule keeps what `GUARD` means, and the record of INIT goes along (R26). -/
theorem StepRule.guardTells {s t : State} (hrule : StepRule s t) {initialised : Bool} (h : GuardTells s initialised) :
    GuardTells t (initAfter s initialised) := by
  have ⟨hguard, hinit, hrun⟩ := h
  cases hrule with
  | reset he => exact initAfter_reset he _ ▸ guardTells_idle rfl (by simp)
  | unchanged outs hk _ => exact hk.initAfter_eq _ ▸ h
  | init w sid he hd hi => exact initAfter_init he hd hi _ ▸ guardTells_idle hi (by simp)
  | write w v n he hd hi hg _ =>
    have hk : KeepsInitRecord s := keepsInitRecord_of_cmd he (by simp [hd])
    have hexecuted : initialised = true := by
      by_contra hf
      simpa [hg] using hguard.mpr (.inl (by simpa using hf))
    rw [hk.initAfter_eq, hexecuted]
    exact guardTells_writing (by simp [Block.Writing]) rfl
  | flush w he hd hi | flushR w he hd hi =>
    rw [(keepsInitRecord_of_cmd he (by simp [hd])).initAfter_eq]
    exact h.congr rfl (by simp [Block.Writing, hi]) (by simp)
  | finish ht hr _ =>
    rw [ht.keepsInitRecord.initAfter_eq, hinit ⟨by simp [hr], hrun hr⟩]
    exact guardTells_idle rfl (by simp)
  | overflow ht hr _ _ =>
    rw [ht.keepsInitRecord.initAfter_eq]
    exact h.congr rfl (by simp [Block.Writing, hr]) (by simp)
  | store old ht hr _ _ _ =>
    rw [ht.keepsInitRecord.initAfter_eq]
    exact h.congr (by simp) (by simp [Block.Writing]) (by simpa using hrun)
  | sendRet st he hs =>
    rw [(keepsInitRecord_of_sendRet he).initAfter_eq]
    exact h.congr (by simp) (writing_sendRetBlock hs _) fun hr => by simpa [sendRetBlock_ph] using hr

/-- Settles O44, rule by rule. -/
theorem guardMeaningIsKeptByEveryStep : Obligations.GuardMeaningIsKeptByEveryStep :=
  fun _ _ _ h hstep => (stepRule_of_step hstep).guardTells h

/-- The invariant of R26 at the end of a run, with the record of INIT the run leaves. -/
theorem guardTells_runSteps {k : Nat} {s t : State} {initialised : Bool} (h : GuardTells s initialised)
    (hrun : runSteps k s = .next t) : GuardTells t (initSince k s initialised) := by
  induction k generalizing s initialised with
  | zero =>
    obtain rfl := Host.Outcome.next.inj hrun
    exact h
  | succ k ih =>
    obtain ⟨s', hs, hr⟩ := runSteps_succ hrun
    have hsince : initSince (k + 1) s initialised = initSince k s' (initAfter s initialised) := by
      simp [initSince, hs]
    rw [hsince]
    exact ih ((stepRule_of_step hs).guardTells h) hr

/-- Settles O43: a state as reset leaves it meets `GuardTells`, and every step keeps it. -/
theorem guardTellsInitAndWrite : Obligations.GuardTellsInitAndWrite := by
  intro k s t hg hi hrun
  obtain ⟨hguard, -, -⟩ := guardTells_runSteps (guardTells_idle (initialised := false) hi (by simp [hg])) hrun
  refine ⟨hguard, fun hidle hinit => ?_⟩
  by_contra hne
  rcases hguard.mp (Guard.ne_ready.mp hne) with hf | ⟨hbusy, -⟩
  · simp [hinit] at hf
  · exact hbusy hidle

/-- Settles O32: the invariants hold whatever the free draws are. -/
theorem resetStateMeetsTheInvariant : Obligations.ResetStateMeetsTheInvariant :=
  ⟨rfl, rfl, rfl, rfl, rfl, rfl, ⟨by decide, blockInv_drawn State.reset.params 0⟩,
    guardTells_idle rfl (by simp [State.reset])⟩

end Sys2Proof.Machine
end

section
/-! PROOFS. What every step leaves unchanged: the parameters and the history, `GUARD`, the packets, and what a sent image
holds. -/

namespace Sys2Proof.Machine

/-! ### The history -/

/-- A rule keeps the parameters and takes one event (R29). -/
theorem StepRule.params_events {s t : State} (h : StepRule s t) : t.params = s.params ∧ t.events = s.events.tail := by
  cases h <;> exact ⟨rfl, rfl⟩

/-- A rule adds at most one image and one accept code to the history (R98, R105). -/
theorem StepRule.log_grows {s t : State} (h : StepRule s t) :
    ∃ outs, t.log = s.log ++ outs ∧ (sends outs).length ≤ 1 ∧ (accepts outs).length ≤ 1 := by
  cases h with
  | unchanged outs _ ho =>
    refine ⟨outs, rfl, ?_⟩
    rcases ho with rfl | ⟨c, -, rfl⟩ <;> simp
  | reset | init | write | flush | flushR | finish | overflow | store | sendRet => exact ⟨_, rfl, by simp, by simp⟩

/-- Settles O37, from the two facts every rule keeps. -/
theorem historyOnlyGrows : Obligations.HistoryOnlyGrows := fun _ _ hstep =>
  have h := stepRule_of_step hstep
  ⟨h.params_events.1, h.params_events.2, h.log_grows⟩

/-! ### `GUARD` -/

/-- Settles O39: the other rules leave `GUARD` as it is. -/
theorem guardIsWrittenByThreeRules : Obligations.GuardIsWrittenByThreeRules := by
  intro s t hstep hne
  cases stepRule_of_step hstep with
  | reset he => exact .inl ⟨he, rfl⟩
  | init w sid he hd hi => exact .inr (.inl ⟨w, sid, he, hd, hi, rfl⟩)
  | write w v n he hd hi => exact .inr (.inr (.inl ⟨w, v, n, he, hd, hi, rfl, rfl⟩))
  | finish _ hr h0 => exact .inr (.inr (.inr ⟨hr, h0, rfl, rfl⟩))
  | unchanged | flush | flushR | overflow => exact absurd rfl hne
  | store => exact absurd (by simp) hne
  | sendRet => exact absurd (by simp) hne

/-! ### The packets -/

theorem pkt_eq_of_fields {b c : Block} (h0 : b.p0 = c.p0) (h1 : b.p1 = c.p1) (i : PacketId) : b.pkt i = c.pkt i := by
  cases i
  · exact h0
  · exact h1

/-- INIT writes packet 0 only (R70). -/
theorem initBlock_pkt_of_ne {cap : Nat} {sid : SourceId} {b : Block} {i : PacketId}
    (h : (initBlock cap sid b).pkt i ≠ b.pkt i) : i = .p0 := by
  cases i
  · rfl
  · exact absurd rfl h

/-- A store writes the active packet only (R79). -/
theorem storeBlock_pkt_of_ne {b : Block} {old : Byte} {i : PacketId}
    (h : (storeBlock b old).pkt i ≠ b.pkt i) : i = b.act := by
  rcases PacketId.eq_or_other b.act i with rfl | rfl
  · rfl
  · exact absurd (storeBlock_pkt_other b old) h

/-- A store keeps the header of the packet it writes (R79). -/
theorem storeBlock_pkt_act_header (b : Block) (old : Byte) :
    ((storeBlock b old).pkt b.act).seq = (b.pkt b.act).seq ∧ ((storeBlock b old).pkt b.act).sid = (b.pkt b.act).sid := by
  rw [storeBlock_pkt_act]
  exact ⟨rfl, rfl⟩

/-- A return with `OPK` other than FLUSH rotates (R106). -/
theorem sendRetBlock_pkt {b : Block} (h : b.opk ≠ .flush) (cap : Nat) (i : PacketId) :
    (sendRetBlock cap b).pkt i = (rotate cap b).pkt i := by
  cases hk : b.opk with
  | write => rw [sendRetBlock_write hk]; exact pkt_eq_of_fields rfl rfl i
  | flush => exact absurd hk h
  | flushR => rw [sendRetBlock_flushR hk]; exact pkt_eq_of_fields rfl rfl i

/-- A return writes the packet that was not active, and only when it rotates (R39, R106). -/
theorem sendRetBlock_pkt_of_ne {cap : Nat} {b : Block} {i : PacketId}
    (h : (sendRetBlock cap b).pkt i ≠ b.pkt i) : i = b.act.other ∧ b.opk ≠ .flush := by
  have hk : b.opk ≠ .flush := by
    intro hflush
    rw [sendRetBlock_flush hflush] at h
    exact h (pkt_eq_of_fields rfl rfl i)
  refine ⟨?_, hk⟩
  rw [sendRetBlock_pkt hk] at h
  rcases PacketId.eq_or_other b.act i with rfl | rfl
  · exact absurd (rotate_pkt_act cap b) h
  · rfl

/-- A return that rotates advances the counter (R39). -/
theorem sendRetBlock_seq {b : Block} (h : b.opk ≠ .flush) (cap : Nat) :
    (sendRetBlock cap b).seq = b.seq + 1#8 := by
  cases hk : b.opk with
  | write => simp [sendRetBlock_write hk]
  | flush => exact absurd hk h
  | flushR => simp [sendRetBlock_flushR hk]

theorem sendRetBlock_act {b : Block} (h : b.opk ≠ .flush) (cap : Nat) : (sendRetBlock cap b).act = b.act.other := by
  rw [← rotate_act cap b]
  simp only [Block.act, sendRetBlock_seq h, rotate_seq_val]

/-- Settles O40: each of the other rules leaves both packets as they are. -/
theorem packetsAreWrittenByStoreInitAndRotation : Obligations.PacketsAreWrittenByStoreInitAndRotation := by
  intro s t i hstep hne hreset
  cases stepRule_of_step hstep with
  | reset he => exact absurd he hreset
  | init w sid he hd hi => exact .inr (.inl ⟨initBlock_pkt_of_ne hne, w, sid, he, hd, hi⟩)
  | unchanged | write | flush | flushR | finish | overflow => exact absurd (pkt_eq_of_fields rfl rfl i) hne
  | store old _ hr h0 =>
    obtain rfl := storeBlock_pkt_of_ne hne
    exact .inl ⟨rfl, hr, h0, storeBlock_seq _ old, storeBlock_pkt_act_header s.blk old⟩
  | sendRet st he hs =>
    obtain ⟨hi, hk⟩ := sendRetBlock_pkt_of_ne hne
    exact .inr (.inr ⟨hi, hi.trans (sendRetBlock_act hk _).symm, ⟨st, he⟩, hs, hk, sendRetBlock_seq hk _⟩)

/-! ### What a sent image holds -/

/-- A rule sends nothing, or the image of the packet then active (R105). -/
theorem StepRule.sends_log {s t : State} (h : StepRule s t) :
    sends t.log = sends s.log ∨ sends t.log = sends s.log ++ [image s.params s.blk.active] := by
  cases h with
  | unchanged outs _ ho =>
    left
    rcases ho with rfl | ⟨c, -, rfl⟩ <;> simp
  | reset | init | write | finish | store | sendRet => exact .inl (by simp)
  | flush | flushR | overflow => exact .inr (by simp)

/-- Byte 1 of an image is the packet's counter (R36). -/
theorem image_seq (ps : Params) (p : Packet) : (image ps p)[1]? = some p.seq := rfl

/-- Bytes 2 and 3 of an image are the identifier, in the order the parameter gives (R36, R37). -/
theorem image_sid (ps : Params) (p : Packet) : ((image ps p).drop 2).take 2 = sidBytes ps.srcIdOrder p.sid := by
  cases h : ps.srcIdOrder <;> simp [image, sidBytes, h]

/-- From byte 4 on an image is the data array (R36). -/
theorem image_data (ps : Params) (p : Packet) (j : Nat) : (image ps p)[4 + j]? = p.data[j]? := by
  cases h : ps.srcIdOrder <;> simp [image, sidBytes, h, Nat.add_comm 4 j]

/-- The data bits of an image are those of its packet (R33, R36). -/
theorem image_bit (ps : Params) (p : Packet) (pos : Nat) :
    ((image ps p)[4 + pos / 8]?.getD 0#8).getLsbD (7 - pos % 8) = p.bit pos := by
  rw [image_data, Packet.bit]

/-- Settles O42: the image is that of a prepared active packet. -/
theorem sentImagesAreCleanAfterInit : Obligations.SentImagesAreCleanAfterInit := by
  intro s t img ⟨_, hsized, _, hprepared, _⟩ hinit hstep hsent
  obtain ⟨hseq, hsid, hvbc, htail⟩ := hprepared hinit
  obtain rfl : img = image s.params s.blk.active := by
    rcases (stepRule_of_step hstep).sends_log with h | h
    · simp [h] at hsent
    · simpa [h, eq_comm] using hsent
  have hlen : s.blk.active.data.length = s.params.cap := dataSized_iff.mp hsized s.blk.act
  refine ⟨?_, hvbc, ?_, ?_, fun pos hge hpos => ?_⟩
  · rw [length_image, hlen, Params.len]
  · rw [image_seq, hseq]
  · rw [image_sid, hsid]
  · rw [image_bit]
    exact htail pos hpos hge

end Sys2Proof.Machine
end

section
/-! PROOFS. The packets (20_memory.md): the wire image, preparation, rotation, and the engine step rule by rule, which stops only
outside the data array. -/

namespace Sys2Proof.Machine

/-! ### The wire image -/

/-- Byte 0 of an image is the packet's count (R36). -/
theorem image_vbc (ps : Params) (p : Packet) : (image ps p)[0]? = some p.vbc := rfl

/-- Below `CAP`, `DataRead` is the list's own lookup (R31). -/
theorem Memory.read_of_lt {cap : Nat} (m : Memory) {j : Nat} (hj : j < cap) : Memory.read cap m j = m[j]? := if_pos hj

/-- Settles O28, field by field. -/
theorem imageHasTheWireLayout : Obligations.ImageHasTheWireLayout := by
  intro ps p hlen
  refine ⟨?length, image_vbc ps p, image_seq ps p, ?msbFirst, ?lsbFirst, fun j hj => ?data⟩
  case length => rw [length_image, hlen]
  case msbFirst => intro ho; simp [image, sidBytes, ho]
  case lsbFirst => intro ho; simp [image, sidBytes, ho]
  case data => rw [image_data, Memory.read_of_lt _ hj]

/-! ### Preparation and rotation -/

/-- Settles O29: the packet prepared by `prepare_pkt_same`, the frame by the lemmas of each register. -/
theorem preparationMakesAnEmptyPacket : Obligations.PreparationMakesAnEmptyPacket := by
  intro cap i b
  have hframe : (prepare cap i b).pkt i.other = b.pkt i.other := prepare_pkt_other cap i b
  simp only [prepare_pkt_same, hframe]
  exact ⟨Memory.length_zeroed cap, fun _ => Memory.read_zeroed, by simp⟩

/-- The active packet by the parity of the counter (R16). -/
theorem Block.active_eq_ite (b : Block) : b.active = if b.seq.toNat % 2 = 0 then b.p0 else b.p1 := by
  by_cases h : b.seq.toNat % 2 = 0 <;> simp [Block.active, Block.act, PacketId.ofParity, Block.pkt, h]

/-- A rotation advances the counter by one mod 256 (R11, R39). -/
theorem rotate_seq_toNat (cap : Nat) (b : Block) : (rotate cap b).seq.toNat = (b.seq.toNat + 1) % 256 := by simp

/-- A rotation makes the other packet active (R16, R39). -/
theorem rotate_active_eq_other (cap : Nat) (b : Block) : (rotate cap b).active = (rotate cap b).pkt b.act.other := by
  rw [Block.active, rotate_act]

/-- Settles O30: which packet is which follows from the parity of the old counter. -/
theorem rotationAlternatesThePackets : Obligations.RotationAlternatesThePackets := by
  intro cap b
  have hold := rotate_pkt_act cap b
  have hnew := rotate_active_eq_other cap b
  refine ⟨rotate_seq_toNat cap b, rotate_seq_toNat cap b ▸ Block.active_eq_ite _, rotate_active cap b, ?_, by simp⟩
  by_cases he : b.seq.toNat % 2 = 0
  · have hact : b.act = .p0 := if_pos he
    rw [hact] at hold hnew
    rw [if_pos he]
    exact ⟨hold, hnew⟩
  · have hact : b.act = .p1 := if_neg he
    rw [hact] at hold hnew
    rw [if_neg he]
    exact ⟨hold, hnew⟩

/-! ### The engine step, rule by rule (R77) -/

theorem engineStep_finish {s : State} (h : s.blk.rem.val = 0) : engineStep s = finishWrite s := if_pos h

theorem engineStep_overflow {s : State} (h : 0 < s.blk.rem.val) (hf : s.blk.active.vbc.toNat = s.params.capBits) :
    engineStep s = overflowSend s := by
  rw [engineStep, if_neg h.ne', if_pos hf]

theorem engineStep_store {s : State} (h : 0 < s.blk.rem.val) (hf : s.blk.active.vbc.toNat ≠ s.params.capBits) :
    engineStep s = storeChunk s := by
  rw [engineStep, if_neg h.ne', if_neg hf]

/-- A store whose byte exists stores (R79). -/
theorem storeChunk_of_read {s : State} {old : Byte}
    (h : Memory.read s.params.cap s.blk.active.data (byteIndex s.blk.active.vbc) = some old) :
    storeChunk s = .next { s with blk := storeBlock s.blk old } := by
  simp only [storeChunk, h, storeBlock]

/-- A store whose byte is outside the array faults (R31, log 9). -/
theorem storeChunk_outside {s : State} (h : s.params.cap ≤ byteIndex s.blk.active.vbc) :
    storeChunk s = .fault (.dataIndexOutOfRange s.blk.act (byteIndex s.blk.active.vbc)) := by
  simp only [storeChunk, Memory.read_out _ _ h]

theorem takeTick_run {s : State} (h : s.blk.ph = .run) : takeTick s = engineStep s := if_pos h

theorem takeTick_not_run {s : State} (h : s.blk.ph ≠ .run) : takeTick s = .next s := if_neg h

/-- Settles O16: a count above `CAPBITS` is not the full test's, and its byte index is at least `CAP`. -/
theorem storeOutsideTheArrayFaults : Obligations.StoreOutsideTheArrayFaults := by
  intro s es hl he hr h0 hover
  have hbyte : s.params.cap ≤ byteIndex s.blk.active.vbc := by
    simp only [Params.capBits, byteIndex] at hover ⊢; omega
  calc step s = takeTick { s with events := es } := step_event hl he
    _ = engineStep { s with events := es } := takeTick_run hr
    _ = storeChunk { s with events := es } := engineStep_store h0 hover.ne'
    _ = .fault (.dataIndexOutOfRange s.blk.act (byteIndex s.blk.active.vbc)) := storeChunk_outside hbyte

/-! ### Every step answers -/

/-- The command port answers every command, in every state (R101). -/
theorem exec_answers (i : Instr) (s : State) : ∃ t, exec i s = .next t := by
  by_cases hi : s.blk.ph = .idle
  · cases i with
    | init sid => exact ⟨_, whenIdle_idle hi _⟩
    | write value width =>
      simp only [exec, execWrite, whenIdle_idle hi]
      split
      · exact ⟨_, rfl⟩
      · split <;> exact ⟨_, rfl⟩
    | flush => exact ⟨_, whenIdle_idle hi _⟩
    | flushR => exact ⟨_, whenIdle_idle hi _⟩
  · cases i <;> exact ⟨_, whenIdle_busy hi _⟩

/-- The engine answers when the active count is at most `CAPBITS` and the active array has its `CAP` bytes (R23, R31). -/
theorem engineStep_answers {s : State} (hd : s.blk.active.data.length = s.params.cap)
    (hv : s.blk.active.vbc.toNat ≤ s.params.capBits) : ∃ t, engineStep s = .next t := by
  rcases Nat.eq_zero_or_pos s.blk.rem.val with h0 | h0
  · exact ⟨_, engineStep_finish h0⟩
  · by_cases hf : s.blk.active.vbc.toNat = s.params.capBits
    · exact ⟨_, engineStep_overflow h0 hf⟩
    · have hbyte := byteIndex_lt (lt_of_le_of_ne hv hf)
      exact ⟨_, (engineStep_store h0 hf).trans (storeChunk_of_read (Memory.read_isSome hd hbyte))⟩

theorem takeTick_answers {s : State} (h : BlockInv s.params s.blk) : ∃ t, takeTick s = .next t := by
  by_cases hr : s.blk.ph = .run
  · obtain ⟨-, hsized, ⟨-, -, hclean⟩, -⟩ := h.writing (h.writing_of_run hr)
    rw [takeTick_run hr]
    exact engineStep_answers (dataSized_iff.mp hsized s.blk.act) hclean.1
  · exact ⟨s, takeTick_not_run hr⟩

/-- Every event is answered under the invariant: only a tick could fault (R113). -/
theorem takeEvent_answers (e : Event) {s : State} (h : BlockInv s.params s.blk) : ∃ t, takeEvent e s = .next t := by
  cases e with
  | reset => exact ⟨_, rfl⟩
  | cmd w =>
    simp only [takeEvent, takeCmd]
    split
    · exact ⟨_, rfl⟩
    · exact exec_answers _ s
  | tick => exact takeTick_answers h
  | sendRet st =>
    simp only [takeEvent, takeSendRet]
    split <;> exact ⟨_, rfl⟩

/-- Settles O36: whether an event waits or none does, the step is answered. -/
theorem invariantStepNeverStops : Obligations.InvariantStepNeverStops := by
  intro s ⟨hl, h⟩
  cases he : s.events with
  | nil => rw [step_empty hl he]; exact takeTick_answers h
  | cons e es => rw [step_event hl he]; exact takeEvent_answers e h

end Sys2Proof.Machine
end

section
/-! PROOFS. A WRITE run to completion: the step that accepts it, the induction over the steps up to its end, and the bits a WRITE
that fits appends (41_write_data.md R76, R79, R88). -/

namespace Sys2Proof.Machine

/-! ### The accepting step -/

theorem decode_encode_write (value : Value) (width : Byte) :
    decode (encode (.write value width)) = .instr (.write value width) := by
  simp [decode, encode]

/-- A legal WRITE presented to an idle, ready packer is accepted (R76, R98). -/
theorem exec_write_accepted {s : State} (hi : s.blk.ph = .idle) (hg : s.blk.guard = .ready) (value : Value)
    {width : Byte} (hw : legalWidth width) :
    exec (.write value width) s = acceptOk { s with blk := acceptWriteBlock value width s.blk } := by
  rw [exec, execWrite, whenIdle_idle hi, if_neg (not_not.mpr hg), if_neg (not_not.mpr hw)]

/-- The step that takes the word of such a WRITE. -/
theorem step_write_accepted {s : State} {es : List Event} {value : Value} {width : Byte} (hl : s.params.legal)
    (he : s.events = .cmd (encode (.write value width)) :: es) (hi : s.blk.ph = .idle) (hg : s.blk.guard = .ready)
    (hw : legalWidth width) : step s = .next (s.after (acceptWriteBlock value width s.blk) [.accept .ok]) := by
  rw [step_event hl he, takeEvent, takeCmd, decode_encode_write]
  simp only [exec_write_accepted (s := { s with events := es }) hi hg value hw]
  simp [acceptOk, State.put, State.after, he]

/-! ### The steps up to the end of the WRITE -/

/-- A property kept by every step from a busy state holds at the end of a run that is busy until then. -/
theorem runSteps_busy_induct {P : State → Prop}
    (hstep : ∀ u u', P u → u.blk.ph ≠ .idle → step u = .next u' → P u') {k : Nat} {s t : State} (hs : P s)
    (hrun : runSteps k s = .next t) (hbusy : ∀ j u, j < k → runSteps j s = .next u → u.blk.ph ≠ .idle) : P t := by
  induction k generalizing s with
  | zero =>
    obtain rfl := Host.Outcome.next.inj hrun
    exact hs
  | succ k ih =>
    obtain ⟨s', hfirst, hrest⟩ := runSteps_succ hrun
    refine ih (hstep s s' hs (hbusy 0 s k.succ_pos rfl) hfirst) hrest fun j u hj hu => ?_
    exact hbusy (j + 1) u (Nat.succ_lt_succ hj) (by simpa [runSteps, hfirst] using hu)

/-- A WRITE run to completion has a legal width. -/
theorem WriteRunsToCompletion.legal {s t : State} {value : Value} {width : Byte}
    (h : WriteRunsToCompletion s t value width) : legalWidth width := by
  obtain ⟨-, -, -, hw, -⟩ := h
  exact hw

/-- It ends at `PH = IDLE`, and the invariant holds there. -/
theorem WriteRunsToCompletion.ends {s t : State} {value : Value} {width : Byte}
    (h : WriteRunsToCompletion s t value width) : PackerInv t ∧ t.blk.ph = .idle := by
  obtain ⟨hinv, -, -, -, -, k, hrun, hidle, -⟩ := h
  exact ⟨runSteps_induct stepKeepsTheInvariant hinv hrun, hidle⟩

/-- Packaged induction for a WRITE run to completion: what holds right after its acceptance, and is kept by every step from a busy
state that meets the invariant and takes no reset, holds at its end. -/
theorem WriteRunsToCompletion.induct {P : State → Prop} {s t : State} {value : Value} {width : Byte}
    (h : WriteRunsToCompletion s t value width)
    (haccepted : P (s.after (acceptWriteBlock value width s.blk) [.accept .ok]))
    (hstep : ∀ u u', P u → PackerInv u → u.blk.ph ≠ .idle → u.events.head? ≠ some .reset → step u = .next u' → P u') :
    P t := by
  obtain ⟨hinv, hi, hg, hw, ⟨es, he, hes⟩, k, hrun, -, hbusy⟩ := h
  have hfirst := step_write_accepted hinv.1 he hi hg hw
  obtain ⟨s₁, hs₁, hrest⟩ := runSteps_succ hrun
  obtain rfl := Host.Outcome.next.inj (hs₁.symm.trans hfirst)
  have hres : P t ∧ PackerInv t ∧ NoReset t.events := by
    refine runSteps_busy_induct (P := fun u => P u ∧ PackerInv u ∧ NoReset u.events) ?_
      ⟨haccepted, stepKeepsTheInvariant _ _ hinv hfirst, by simpa [he] using hes⟩ hrest fun j u hj hu =>
        hbusy (j + 1) u j.succ_pos hj (by simpa [runSteps, hfirst] using hu)
    intro u u' ⟨hu, hinvu, hnr⟩ hbusyu hstepu
    refine ⟨hstep u u' hu hinvu hbusyu ?_ hstepu, stepKeepsTheInvariant u u' hinvu hstepu, ?_⟩
    · exact fun hreset => hnr _ (List.mem_of_mem_head? hreset) rfl
    · rw [(stepRule_of_step hstepu).params_events.2]
      exact fun e hmem => hnr e (List.mem_of_mem_tail hmem)
  exact hres.1

/-! ### The bits appended so far -/

/-- `c` is a block on the way of a WRITE accepted in `b` that has not rotated: the `width - REM` bits written stand in the active
packet after those of `b`, the other `REM` bits are the top of `ACC`. -/
structure AppendedSoFar (b c : Block) (value : Value) (width : Byte) : Prop where
  seq : c.seq = b.seq
  other : c.pkt c.act.other = b.pkt b.act.other
  rem_le : c.rem.val ≤ width.toNat
  count : c.active.vbc.toNat + c.rem.val = b.active.vbc.toNat + width.toNat
  kept : ∀ pos, pos < b.active.vbc.toNat → c.active.bit pos = b.active.bit pos
  appended : ∀ k, k + c.rem.val < width.toNat →
    c.active.bit (b.active.vbc.toNat + k) = value.getLsbD (width.toNat - 1 - k)
  pending : ∀ k, k < c.rem.val → c.acc.getLsbD (31 - k) = value.getLsbD (c.rem.val - 1 - k)

/-- The accumulator an accepted WRITE loads holds the value's low `width` bits from the top down (R76). -/
theorem getLsbD_leftAlign_high (value : Value) {width : Byte} (hw : legalWidth width) {k : Nat} (hk : k < width.toNat) :
    (leftAlign value width).getLsbD (31 - k) = value.getLsbD (width.toNat - 1 - k) := by
  obtain ⟨-, hmax⟩ := hw
  have hin : 31 - k < 32 := by omega
  have hshift : ¬ 31 - k < 32 - width.toNat := by omega
  have hidx : 31 - k - (32 - width.toNat) = width.toNat - 1 - k := by omega
  rw [leftAlign, BitVec.getLsbD_shiftLeft, hidx]
  simp only [hin, hshift, decide_true, decide_false, Bool.not_false, Bool.true_and]

/-- Right after the acceptance nothing is written yet. -/
theorem appendedSoFar_acceptWriteBlock (b : Block) (value : Value) {width : Byte} (hw : legalWidth width) :
    AppendedSoFar b (acceptWriteBlock value width b) value width := by
  have hact : (acceptWriteBlock value width b).active = b.active := Block.active_congr rfl rfl rfl
  have hrem : (acceptWriteBlock value width b).rem.val = width.toNat := remOfWidth_val hw
  refine ⟨rfl, pkt_eq_of_fields rfl rfl _, hrem.le, ?_, ?_, ?_, ?_⟩
  · rw [hact, hrem]
  · exact fun pos _ => by rw [hact]
  · exact fun k hk => by omega
  · rw [hrem]
    exact fun k => getLsbD_leftAlign_high value hw

/-- Only the counter, the packets, `ACC` and `REM` matter. -/
theorem AppendedSoFar.congr {b c d : Block} {value : Value} {width : Byte} (h : AppendedSoFar b c value width)
    (hs : d.seq = c.seq) (h0 : d.p0 = c.p0) (h1 : d.p1 = c.p1) (ha : d.acc = c.acc) (hr : d.rem = c.rem) :
    AppendedSoFar b d value width := by
  have hact : d.active = c.active := Block.active_congr hs h0 h1
  have hother : d.pkt d.act.other = c.pkt c.act.other := by
    rw [Block.act, hs]; exact pkt_eq_of_fields h0 h1 _
  obtain ⟨hseq, hoth, hle, hcount, hkept, happ, hpend⟩ := h
  exact ⟨hs.trans hseq, hother.trans hoth, hr ▸ hle, hact ▸ hr ▸ hcount, hact ▸ hkept, hact ▸ hr ▸ happ, ha ▸ hr ▸ hpend⟩

/-- A store moves one chunk from the top of `ACC` to the end of the bits written (R79). -/
theorem AppendedSoFar.storeBlock {ps : Params} {b c : Block} {value : Value} {width : Byte}
    (h : AppendedSoFar b c value width) (hl : ps.legal) (hc : c.active.Clean ps) (h0 : 0 < c.rem.val)
    (hroom : c.active.vbc.toNat < ps.capBits) {old : Byte}
    (ho : Memory.read ps.cap c.active.data (byteIndex c.active.vbc) = some old) :
    AppendedSoFar b (storeBlock c old) value width := by
  obtain ⟨hseq, hother, hle, hcount, hkept, happ, hpend⟩ := h
  obtain ⟨hvbc, hfit⟩ := advanceVbc_toNat hl (rem := c.rem) hroom
  obtain ⟨-, hn, hnr⟩ := chunkLen_bounds c.active.vbc h0
  have hbit := Packet.bit_storePacket (Memory.getElem?_of_read ho) c.acc hn
  have hrem : (Machine.storeBlock c old).rem.val = c.rem.val - chunkLen c.active.vbc c.rem := advanceRem_val _ _
  have hacc : (Machine.storeBlock c old).acc = c.acc <<< chunkLen c.active.vbc c.rem := rfl
  have hact : (Machine.storeBlock c old).act = c.act := by rw [Block.act, storeBlock_seq, Block.act]
  have hnew : (Machine.storeBlock c old).active.vbc.toNat = c.active.vbc.toNat + chunkLen c.active.vbc c.rem := by
    rw [storeBlock_active]; exact hvbc
  have hrem32 := c.rem.isLt
  constructor
  case seq => rw [storeBlock_seq, hseq]
  case other => rw [hact, storeBlock_pkt_other, hother]
  case rem_le => omega
  case count => omega
  case kept =>
    intro pos hpos
    rw [storeBlock_active, hbit, if_neg (by omega), hkept pos hpos]
  case appended =>
    intro k hk
    rw [storeBlock_active, hbit]
    by_cases hold : k + c.rem.val < width.toNat
    · rw [if_neg (by omega), happ k hold]
    · have hempty : c.active.bit (b.active.vbc.toNat + k) = false := hc.2 _ (by omega) (by omega)
      have hidx : c.rem.val - 1 - (b.active.vbc.toNat + k - c.active.vbc.toNat) = width.toNat - 1 - k := by omega
      rw [if_pos (by omega), hempty, Bool.false_or, hpend _ (by omega), hidx]
  case pending =>
    intro k hk
    have hin : 31 - k < 32 := by omega
    have hshift : ¬ 31 - k < chunkLen c.active.vbc c.rem := by omega
    have hidx : 31 - k - chunkLen c.active.vbc c.rem = 31 - (k + chunkLen c.active.vbc c.rem) := by omega
    have hval : c.rem.val - 1 - (k + chunkLen c.active.vbc c.rem) = (Machine.storeBlock c old).rem.val - 1 - k := by omega
    rw [hacc, BitVec.getLsbD_shiftLeft, hidx, hpend _ (by omega), hval]
    simp [hin, hshift]

/-! ### A WRITE that fits -/

/-- `u` is a state on the way of a WRITE accepted in `s` that fits: nothing has been sent, and the engine is at work or has
written every bit. -/
structure FittingWrite (s u : State) (value : Value) (width : Byte) : Prop where
  params : u.params = s.params
  sends : sends u.log = sends s.log
  appended : AppendedSoFar s.blk u.blk value width
  phase : u.blk.ph = .run ∨ u.blk.ph = .idle ∧ u.blk.guard = .ready ∧ u.blk.rem.val = 0

/-- Every step of a WRITE that fits stays on its way: while `REM > 0` the packet is not full, so the engine never sends. -/
theorem FittingWrite.step {s u u' : State} {value : Value} {width : Byte} (h : FittingWrite s u value width)
    (hroom : s.blk.active.vbc.toNat + width.toNat ≤ s.params.capBits) (hinv : PackerInv u) (hbusy : u.blk.ph ≠ .idle)
    (hnoreset : u.events.head? ≠ some .reset) (hstep : step u = .next u') : FittingWrite s u' value width := by
  obtain ⟨hl, hblk⟩ := hinv
  obtain ⟨hp, hs, happ, hphase⟩ := h
  have hrun : u.blk.ph = .run := hphase.resolve_right fun hidle => hbusy hidle.1
  have hcount := happ.count
  cases stepRule_of_step hstep with
  | reset he => exact absurd he hnoreset
  | unchanged outs _ ho =>
    have hnone : Machine.sends outs = [] := by rcases ho with rfl | ⟨c, -, rfl⟩ <;> rfl
    exact ⟨hp, by simp [hnone, hs], happ, hphase⟩
  | init _ _ _ _ hi | write _ _ _ _ _ hi | flush _ _ _ hi | flushR _ _ _ hi => exact absurd hi hbusy
  | finish _ _ h0 => exact ⟨hp, by simpa using hs, happ.congr rfl rfl rfl rfl rfl, .inr ⟨rfl, rfl, h0⟩⟩
  | overflow _ _ h0 hf =>
    rw [hp] at hf
    omega
  | store old _ _ h0 hf ho =>
    obtain ⟨-, -, ⟨-, -, hclean⟩, -⟩ := hblk.writing (hblk.writing_of_run hrun)
    have hstored := happ.storeBlock hl hclean h0 (lt_of_le_of_ne hclean.1 hf) ho
    exact ⟨hp, by simpa using hs, hstored, .inl (by simpa using hrun)⟩
  | sendRet _ _ hw => exact absurd hw (by simp [hrun])

/-- The end of a WRITE that fits is on its way. -/
theorem WriteRunsToCompletion.fittingWrite {s t : State} {value : Value} {width : Byte}
    (h : WriteRunsToCompletion s t value width)
    (hroom : s.blk.active.vbc.toNat + width.toNat ≤ s.params.capBits) : FittingWrite s t value width := by
  refine h.induct (P := fun u => FittingWrite s u value width) ?_ fun u u' hu hinv hbusy hnoreset hstep =>
    hu.step hroom hinv hbusy hnoreset hstep
  exact ⟨rfl, by simp, appendedSoFar_acceptWriteBlock s.blk value h.legal, .inl rfl⟩


/-- Settles O50: at the end, `PH = IDLE` and so `REM = 0`, the bits appended so far are all of them. -/
theorem fittingWriteAppendsItsBits : Obligations.FittingWriteAppendsItsBits := by
  intro s t value width h hroom
  obtain ⟨⟨-, hblk⟩, hidle⟩ := h.ends
  obtain ⟨hp, hs, ⟨hseq, hother, -, hcount, hkept, happ, -⟩, hphase⟩ := h.fittingWrite hroom
  obtain ⟨hg, hrem⟩ : t.blk.guard = .ready ∧ t.blk.rem.val = 0 := by simpa [hidle] using hphase
  obtain ⟨-, -, hclean⟩ := hblk.prepared_of_ready hg
  rw [hrem] at hcount happ
  exact ⟨hs, hseq, hcount, hkept, happ, hp ▸ hclean, hother⟩

end Sys2Proof.Machine
end

section
/-! PROOFS. The command word (30_encoding.md R50 to R56): its three fields, the bits each command uses, the decoder as the inverse
of the encoder on those bits, and the two rejections that rest on the word alone. -/

namespace Sys2Proof

open Machine

/-! ### A word and its fields (R50) -/

/-- A word is made of its three fields. -/
theorem cmd48_fields (w : CmdWord) : cmd48 (opField w) (widthField w) (valueField w) = w := by
  apply BitVec.eq_of_getLsbD_eq
  intro i hi
  simp only [cmd48_getLsbD, opField, widthField, valueField, BitVec.getLsbD_extractLsb']
  split
  · next h32 => simp [h32]
  · next h32 =>
    split
    · next h40 => simp [show i - 32 < 8 by omega, show 32 + (i - 32) = i by omega]
    · next h40 => simp [show i - 40 < 8 by omega, show 40 + (i - 40) = i by omega]

theorem cmd48_inj {op op' width width' : Byte} {value value' : Value} :
    cmd48 op width value = cmd48 op' width' value' ↔ op = op' ∧ width = width' ∧ value = value' := by
  constructor
  · intro h
    exact ⟨by simpa using congrArg opField h, by simpa using congrArg widthField h, by simpa using congrArg valueField h⟩
  · rintro ⟨rfl, rfl, rfl⟩
    rfl

/-- Masking a word masks its fields. -/
theorem cmd48_and_cmd48 (op op' width width' : Byte) (value value' : Value) :
    cmd48 op width value &&& cmd48 op' width' value' = cmd48 (op &&& op') (width &&& width') (value &&& value') :=
  BitVec.and_append.trans (congrArg (· ++ (value &&& value')) BitVec.and_append)

/-- `source_id` is the low half of the value field. -/
theorem setWidth_sidField (w : CmdWord) : (sidField w).setWidth 32 = valueField w &&& 0xFFFF#32 := by
  apply BitVec.eq_of_getLsbD_eq
  intro i hi
  have hmask : (0xFFFF#32).getLsbD i = decide (i < 16) := by revert i; decide
  simp only [sidField, valueField, BitVec.getLsbD_setWidth, BitVec.getLsbD_extractLsb', BitVec.getLsbD_and, hmask, hi,
    decide_true, Bool.true_and, Bool.and_comm]

@[simp] theorem extractLsb'_setWidth_sid (sid : SourceId) : (sid.setWidth 32).extractLsb' 0 16 = sid := by
  apply BitVec.eq_of_getLsbD_eq
  intro i hi
  simp [hi, show i < 32 by omega]

/-- Extending a `source_id` to the value field loses nothing. -/
theorem setWidth_sid_inj {sid sid' : SourceId} : sid.setWidth 32 = sid'.setWidth 32 ↔ sid = sid' :=
  ⟨fun h => by simpa using congrArg (BitVec.extractLsb' 0 16) h, congrArg _⟩

/-- A mask that keeps `op` and drops the width field, as INIT's and FLUSH's used bits do. -/
theorem and_cmd48_op_mask (w : CmdWord) (mask : Value) :
    w &&& cmd48 0xFF#8 0#8 mask = cmd48 (opField w) 0#8 (valueField w &&& mask) := by
  calc w &&& cmd48 0xFF#8 0#8 mask
      = cmd48 (opField w) (widthField w) (valueField w) &&& cmd48 0xFF#8 0#8 mask := by rw [cmd48_fields]
    _ = cmd48 (opField w &&& 0xFF#8) (widthField w &&& 0#8) (valueField w &&& mask) := cmd48_and_cmd48 ..
    _ = cmd48 (opField w) 0#8 (valueField w &&& mask) := by
      rw [BitVec.and_zero, show (0xFF#8 : Byte) = BitVec.allOnes 8 from rfl, BitVec.and_allOnes]

/-! ### The bits a command uses (R53, R54) -/

theorem and_usedBits_init (w : CmdWord) (sid : SourceId) :
    w &&& (Instr.init sid).usedBits = cmd48 (opField w) 0#8 ((sidField w).setWidth 32) := by
  rw [setWidth_sidField]
  exact and_cmd48_op_mask w 0xFFFF#32

theorem and_usedBits_write (w : CmdWord) (value : Value) (width : Byte) :
    w &&& (Instr.write value width).usedBits = cmd48 (opField w) (widthField w) (valueField w) :=
  BitVec.and_allOnes.trans (cmd48_fields w).symm

theorem and_usedBits_flush (w : CmdWord) : w &&& Instr.flush.usedBits = cmd48 (opField w) 0#8 0#32 := by
  have h := and_cmd48_op_mask w 0#32
  rwa [BitVec.and_zero] at h

theorem and_usedBits_flushR (w : CmdWord) : w &&& Instr.flushR.usedBits = cmd48 (opField w) 0#8 0#32 :=
  and_usedBits_flush w

/-! ### What the decoder reads (R52, R53) -/

theorem decode_eq_init_iff {w : CmdWord} {sid : SourceId} :
    decode w = .instr (.init sid) ↔ opField w = 0x01#8 ∧ sidField w = sid := by
  unfold decode
  split_ifs <;> simp_all

theorem decode_eq_write_iff {w : CmdWord} {value : Value} {width : Byte} :
    decode w = .instr (.write value width) ↔ opField w = 0x02#8 ∧ widthField w = width ∧ valueField w = value := by
  unfold decode
  split_ifs <;> simp_all [and_comm]

theorem decode_eq_flush_iff {w : CmdWord} : decode w = .instr .flush ↔ opField w = 0x03#8 := by
  unfold decode
  split_ifs <;> simp_all

theorem decode_eq_flushR_iff {w : CmdWord} : decode w = .instr .flushR ↔ opField w = 0x04#8 := by
  unfold decode
  split_ifs <;> simp_all

/-- A word decodes to a command exactly when the bits the command uses are those of its encoding. -/
theorem decode_eq_instr_iff {w : CmdWord} {i : Instr} : decode w = .instr i ↔ w &&& i.usedBits = encode i := by
  cases i with
  | init sid => simp only [decode_eq_init_iff, and_usedBits_init, encode, cmd48_inj, setWidth_sid_inj, true_and]
  | write value width => simp only [decode_eq_write_iff, and_usedBits_write, encode, cmd48_inj]
  | flush => simp only [decode_eq_flush_iff, and_usedBits_flush, encode, cmd48_inj, and_true]
  | flushR => simp only [decode_eq_flushR_iff, and_usedBits_flushR, encode, cmd48_inj, and_true]

/-- Settles O2, command by command, from the fields of the encoded word. -/
theorem decodeOfEncodeIsTheCommand : Obligations.DecodeOfEncodeIsTheCommand := by
  intro i
  cases i with
  | init sid => exact decode_eq_init_iff.mpr ⟨opField_cmd48 .., (sidField_cmd48 ..).trans (extractLsb'_setWidth_sid sid)⟩
  | write value width => exact decode_encode_write value width
  | flush => exact decode_eq_flush_iff.mpr (opField_cmd48 ..)
  | flushR => exact decode_eq_flushR_iff.mpr (opField_cmd48 ..)

/-- Settles O3: both halves are `decode_eq_instr_iff`. -/
theorem decodedWordIsEncodingOnUsedBits : Obligations.DecodedWordIsEncodingOnUsedBits :=
  fun _ _ h => ⟨decode_eq_instr_iff.mp h, fun _ => decode_eq_instr_iff.mpr⟩

/-- Settles O1, by evaluating the decoder on each word. -/
theorem specWordsDecode : Obligations.SpecWordsDecode := by
  unfold Obligations.SpecWordsDecode
  decide

/-! ### Rejections (R55, R56) -/

/-- The opcode map has the four operation codes 1 to 4 only (R52, R55). -/
theorem decode_of_reserved {w : CmdWord} (h : (opField w).toNat = 0 ∨ 5 ≤ (opField w).toNat) :
    decode w = .illegalOp (opField w) := by
  have hne {op : Byte} (h1 : 1 ≤ op.toNat) (h4 : op.toNat ≤ 4) : opField w ≠ op := by
    rintro rfl
    omega
  rw [decode, if_neg (hne (by decide) (by decide)), if_neg (hne (by decide) (by decide)),
    if_neg (hne (by decide) (by decide)), if_neg (hne (by decide) (by decide))]

end Sys2Proof

namespace Sys2Proof.Machine

/-- The step that takes a word with a reserved `op` (R55). -/
theorem step_reserved {s : State} {w : CmdWord} {es : List Event} (hl : s.params.legal) (he : s.events = .cmd w :: es)
    (hop : (opField w).toNat = 0 ∨ 5 ≤ (opField w).toNat) :
    step s = .next { s with events := es, log := s.log ++ [.accept .illegalOp] } := by
  rw [step_event hl he, takeEvent, takeCmd, decode_of_reserved hop]
  rfl

/-- Settles O4: the `op` of the all-zero word is 0. -/
theorem reservedOpIsIllegalAndChangesNothing : Obligations.ReservedOpIsIllegalAndChangesNothing :=
  ⟨fun _ _ _ hl he hop => step_reserved hl he hop, fun _ _ hl he => step_reserved hl he (.inl (by decide))⟩

/-- Settles O9: neither the busy check nor the check of `GUARD` stops the command before the check of its width (R98). -/
theorem illegalWidthIsRejected : Obligations.IllegalWidthIsRejected := by
  intro value width s hi hg hwidth
  have hw : ¬ legalWidth width := by rintro ⟨hmin, hmax⟩; omega
  rw [exec, execWrite, whenIdle_idle hi, if_neg (not_not.mpr hg), if_pos hw]
  rfl

end Sys2Proof.Machine
end

section
/-! PROOFS. The status bytes of the collaborator's returns: no event reads one, so a run is the same whatever they are
(30_encoding.md R59, 43_guard_and_sequencer.md R106). -/

namespace Sys2Proof.Machine

@[simp] theorem State.plainStatus_params (s : State) : s.plainStatus.params = s.params := rfl
@[simp] theorem State.plainStatus_blk (s : State) : s.plainStatus.blk = s.blk := rfl
@[simp] theorem State.plainStatus_events (s : State) : s.plainStatus.events = s.events.map Event.plainStatus := rfl

/-! ### The command port and the engine do not look at the schedule -/

theorem whenIdle_plainStatus (s : State) (go : Result) :
    whenIdle s.plainStatus go.plainStatus = (whenIdle s go).plainStatus := by
  by_cases hi : s.blk.ph = .idle
  · rw [whenIdle_idle hi, whenIdle_idle (s := s.plainStatus) hi]
  · rw [whenIdle_busy hi, whenIdle_busy (s := s.plainStatus) hi]
    rfl

theorem execWrite_plainStatus (value : Value) (width : Byte) (s : State) :
    execWrite value width s.plainStatus = (execWrite value width s).plainStatus := by
  rw [execWrite, execWrite, ← whenIdle_plainStatus, apply_ite Result.plainStatus, apply_ite Result.plainStatus]
  rfl

theorem exec_plainStatus (i : Instr) (s : State) : exec i s.plainStatus = Result.plainStatus (exec i s) := by
  cases i with
  | init sid => exact whenIdle_plainStatus s (acceptOk { s with blk := initBlock s.params.cap sid s.blk })
  | write value width => exact execWrite_plainStatus value width s
  | flush => exact whenIdle_plainStatus s (acceptOk (startFlush .flush s))
  | flushR => exact whenIdle_plainStatus s (acceptOk (startFlush .flushR s))

theorem storeChunk_plainStatus (s : State) : storeChunk s.plainStatus = (storeChunk s).plainStatus := by
  simp only [storeChunk, State.plainStatus_params, State.plainStatus_blk]
  cases Memory.read s.params.cap s.blk.active.data (byteIndex s.blk.active.vbc) <;> rfl

theorem engineStep_plainStatus (s : State) : engineStep s.plainStatus = (engineStep s).plainStatus := by
  rw [engineStep, engineStep, apply_ite Result.plainStatus, apply_ite Result.plainStatus, storeChunk_plainStatus]
  rfl

/-! ### One event, one step, a run -/

theorem takeCmd_plainStatus (w : CmdWord) (s : State) : takeCmd w s.plainStatus = (takeCmd w s).plainStatus := by
  unfold takeCmd
  split
  · rfl
  · exact exec_plainStatus _ s

theorem takeTick_plainStatus (s : State) : takeTick s.plainStatus = (takeTick s).plainStatus := by
  rw [takeTick, takeTick, apply_ite Result.plainStatus, engineStep_plainStatus]
  rfl

/-- The return is the same event under any two status bytes (R106). -/
theorem takeSendRet_plainStatus (status status' : Byte) (s : State) :
    takeSendRet status s.plainStatus = (takeSendRet status' s).plainStatus := by
  rw [takeSendRet, takeSendRet, apply_ite Result.plainStatus]
  rfl

theorem takeEvent_plainStatus (e : Event) (s : State) :
    takeEvent e.plainStatus s.plainStatus = (takeEvent e s).plainStatus := by
  cases e with
  | reset => rfl
  | cmd w => exact takeCmd_plainStatus w s
  | tick => exact takeTick_plainStatus s
  | sendRet status => exact takeSendRet_plainStatus 0#8 status s

theorem step_plainStatus (s : State) : step s.plainStatus = Result.plainStatus (step s) := by
  by_cases hl : s.params.legal
  · cases he : s.events with
    | nil =>
      rw [step_empty hl he, step_empty (s := s.plainStatus) hl (by simp [he])]
      exact takeTick_plainStatus s
    | cons e es =>
      have he' : s.plainStatus.events = e.plainStatus :: es.map Event.plainStatus := by simp [he]
      rw [step_event hl he, step_event (s := s.plainStatus) hl he']
      exact takeEvent_plainStatus e { s with events := es }
  · rw [step_illegal hl, step_illegal (s := s.plainStatus) hl]
    rfl

/-- Settles O26, by induction on the number of steps. -/
theorem statusBytesNeverMatter : Obligations.StatusBytesNeverMatter := by
  intro k
  induction k with
  | zero => exact fun _ => rfl
  | succ k ih =>
    intro s
    rw [runSteps, runSteps, step_plainStatus]
    cases step s with
    | next t => exact ih t
    | fault r => rfl
    | refused r => rfl

end Sys2Proof.Machine
end

section
/-! PROOFS. How many engine steps it takes to leave `PH = RUN` (70_reset_and_hazards.md R152): one for each byte of the active
packet that the bits still to be written touch, and one for the finish or the send. -/

namespace Sys2Proof.Machine

/-- A bound on the engine steps until `PH` is no longer `RUN`. -/
def stepsToLeaveRun (b : Block) : Nat :=
  if b.ph ≠ .run then 0 else if b.rem.val = 0 then 1 else ceilDiv (bitOffset b.active.vbc + b.rem.val) 8 + 1

theorem stepsToLeaveRun_eq_zero {b : Block} : stepsToLeaveRun b = 0 ↔ b.ph ≠ .run := by
  unfold stepsToLeaveRun
  split_ifs <;> simp_all

theorem stepsToLeaveRun_running {b : Block} (hr : b.ph = .run) (h0 : 0 < b.rem.val) :
    stepsToLeaveRun b = ceilDiv (bitOffset b.active.vbc + b.rem.val) 8 + 1 := by
  rw [stepsToLeaveRun, if_neg (not_not.mpr hr), if_neg h0.ne']

/-- `REM` is at most 32 and the first chunk starts at most 7 bits into its byte. -/
theorem stepsToLeaveRun_le_runTicks (b : Block) : stepsToLeaveRun b ≤ runTicks := by
  have hrem := b.rem.isLt
  have hoff := bitOffset_lt b.active.vbc
  unfold stepsToLeaveRun ceilDiv runTicks
  split_ifs <;> omega

/-- A store fills its byte or writes the last bits, so one byte fewer is left to touch (R79). -/
theorem stepsToLeaveRun_storeBlock {ps : Params} {b : Block} (hl : ps.legal) (hr : b.ph = .run) (h0 : 0 < b.rem.val)
    (hroom : b.active.vbc.toNat < ps.capBits) (old : Byte) :
    stepsToLeaveRun (storeBlock b old) + 1 ≤ stepsToLeaveRun b := by
  obtain ⟨hvbc, -⟩ := advanceVbc_toNat hl (rem := b.rem) hroom
  have hrem : (storeBlock b old).rem.val = b.rem.val - chunkLen b.active.vbc b.rem := advanceRem_val _ _
  have hcount : (storeBlock b old).active.vbc.toNat = b.active.vbc.toNat + chunkLen b.active.vbc b.rem := by
    rw [storeBlock_active]; exact hvbc
  have hoff := bitOffset_lt b.active.vbc
  rw [stepsToLeaveRun_running hr h0]
  by_cases hlast : b.rem.val ≤ 8 - bitOffset b.active.vbc
  · have hn : chunkLen b.active.vbc b.rem = b.rem.val := Nat.min_eq_right hlast
    have hone : stepsToLeaveRun (storeBlock b old) ≤ 1 := by
      unfold stepsToLeaveRun
      split_ifs <;> omega
    unfold ceilDiv
    omega
  · have hn : chunkLen b.active.vbc b.rem = 8 - bitOffset b.active.vbc := Nat.min_eq_left (by omega)
    have haligned : bitOffset (storeBlock b old).active.vbc = 0 := by
      unfold bitOffset at *
      omega
    rw [stepsToLeaveRun_running (by simpa using hr) (by omega), haligned]
    unfold ceilDiv
    omega

/-- Every tick brings the end of `PH = RUN` one step nearer. -/
theorem stepsToLeaveRun_takeTick {s t : State} (h : PackerInv s) (ht : takeTick s = .next t) :
    stepsToLeaveRun t.blk ≤ stepsToLeaveRun s.blk - 1 := by
  obtain ⟨hl, hblk⟩ := h
  by_cases hr : s.blk.ph = .run
  · rw [takeTick_run hr] at ht
    rcases engineStep_cases ht with ⟨-, rfl⟩ | ⟨-, -, rfl⟩ | ⟨h0, hf, old, -, rfl⟩
    · simp [stepsToLeaveRun]
    · simp [stepsToLeaveRun]
    · obtain ⟨-, -, ⟨-, -, hclean⟩, -⟩ := hblk.writing (hblk.writing_of_run hr)
      exact Nat.le_sub_one_of_lt (stepsToLeaveRun_storeBlock hl hr h0 (lt_of_le_of_ne hclean.1 hf) old)
  · rw [takeTick_not_run hr] at ht
    obtain rfl := Host.Outcome.next.inj ht
    rw [stepsToLeaveRun_eq_zero.mpr hr]

/-- So does every step in which the engine has the turn. -/
theorem stepsToLeaveRun_step {s t : State} (h : PackerInv s) (hturn : EngineTurn s) (hs : step s = .next t) :
    stepsToLeaveRun t.blk ≤ stepsToLeaveRun s.blk - 1 := by
  rcases hturn with he | he
  · rw [step_empty h.1 he] at hs
    exact stepsToLeaveRun_takeTick h hs
  · obtain ⟨es, he⟩ := List.head?_eq_some_iff.mp he
    rw [step_event h.1 he] at hs
    exact stepsToLeaveRun_takeTick (s := { s with events := es }) h hs

/-- `n` scheduled ticks bring it `n` steps nearer and leave the rest of the schedule. -/
theorem runSteps_ticks (n : Nat) {s : State} {es : List Event} (h : PackerInv s)
    (he : s.events = List.replicate n .tick ++ es) :
    ∃ t, runSteps n s = .next t ∧ t.events = es ∧ stepsToLeaveRun t.blk ≤ stepsToLeaveRun s.blk - n := by
  induction n generalizing s with
  | zero => exact ⟨s, rfl, he, le_rfl⟩
  | succ n ih =>
    obtain ⟨s', hs⟩ := invariantStepNeverStops s h
    have htail : s'.events = List.replicate n .tick ++ es := by
      rw [(stepRule_of_step hs).params_events.2, he]
      rfl
    have hnearer := stepsToLeaveRun_step h (.inr (by rw [he]; rfl)) hs
    obtain ⟨t, hrun, hevents, hleft⟩ := ih (stepKeepsTheInvariant s s' h hs) htail
    exact ⟨t, by rw [runSteps, hs]; exact hrun, hevents, by omega⟩

/-- Settles O46: the bound is at most 6, so after six ticks it is 0. -/
theorem sixTicksAreOneRun : Obligations.SixTicksAreOneRun := by
  intro s es h he
  obtain ⟨t, hrun, hevents, hleft⟩ := runSteps_ticks runTicks h he
  rw [Nat.sub_eq_zero_of_le (stepsToLeaveRun_le_runTicks s.blk)] at hleft
  exact ⟨t, hrun, stepsToLeaveRun_eq_zero.mp (Nat.le_zero.mp hleft), hevents⟩

end Sys2Proof.Machine
end

section
/-! PROOFS. INIT (40_init.md R70): complete in one step at `PH = IDLE`, dropped while busy. -/

namespace Sys2Proof.Machine

/-- INIT writes `SRC_ID`, `SEQ`, `GUARD` and packet 0, and nothing else of the block (R70). -/
theorem initBlock_eq (cap : Nat) (sid : SourceId) (b : Block) : initBlock cap sid b =
    { b with srcId := sid, seq := 0#8, guard := .ready,
             p0 := { vbc := 0#8, seq := 0#8, sid := sid, data := Memory.zeroed cap } } := rfl

/-- After INIT packet 0 is the active one: the counter is even (R16, R70). -/
theorem initBlock_act (cap : Nat) (sid : SourceId) (b : Block) : (initBlock cap sid b).act = .p0 := rfl

theorem exec_init_idle {s : State} (hi : s.blk.ph = .idle) (sid : SourceId) :
    exec (.init sid) s = .next (State.put (.accept .ok) { s with blk := initBlock s.params.cap sid s.blk }) := by
  rw [exec, execInit, whenIdle_idle hi, acceptOk]

theorem exec_init_busy {s : State} (hb : s.blk.ph ≠ .idle) (sid : SourceId) :
    exec (.init sid) s = .next (s.put (.accept .dropped)) := by
  rw [exec, execInit, whenIdle_busy hb, reject]

/-- Settles O11: the decoder's word, the accepted INIT field by field from `initBlock_eq`, and the drop (R99). -/
theorem initPreparesPacketZero : Obligations.InitPreparesPacketZero := by
  refine ⟨fun w hop => decode_eq_init_iff.mpr ⟨hop, rfl⟩, fun sid s hi => ⟨_, exec_init_idle hi sid, ?_⟩,
    fun sid s hb => exec_init_busy hb sid⟩
  rw [State.put_blk, initBlock_act, initBlock_eq]
  simpa [hi] using fun j => Memory.read_zeroed (j := j)

end Sys2Proof.Machine
end

section
/-! PROOFS. WRITE step by step (41_write_data.md R76 to R80, R86): the drop, the acceptance, and the engine's three rules as
equations of one step. -/

namespace Sys2Proof.Machine

/-! ### The command port -/

/-- Settles O8: the busy check and the `GUARD` check stand before everything else (R98). -/
theorem droppedWriteWritesNothing : Obligations.DroppedWriteWritesNothing := by
  intro value width s h
  by_cases hi : s.blk.ph = .idle
  · have hg : s.blk.guard ≠ .ready := h.resolve_left (not_not.mpr hi)
    rw [exec, execWrite, whenIdle_idle hi, if_pos hg]
    rfl
  · exact whenIdle_busy hi _

/-- Left-aligning a value looks at its low `width` bits only (R76). -/
theorem leftAlign_congr {value value' : Value} {width : Byte} (hw : legalWidth width)
    (h : ∀ k, k < width.toNat → value'.getLsbD k = value.getLsbD k) : leftAlign value' width = leftAlign value width := by
  apply BitVec.eq_of_getLsbD_eq
  intro i hi
  by_cases hlow : i + width.toNat < 32
  · rw [getLsbD_leftAlign_low value' hlow, getLsbD_leftAlign_low value hlow]
  · obtain ⟨k, rfl, hk⟩ : ∃ k, i = 31 - k ∧ k < width.toNat := ⟨31 - i, by omega, by omega⟩
    rw [getLsbD_leftAlign_high value' hw hk, getLsbD_leftAlign_high value hw hk, h _ (by omega)]

/-- Settles O12: the accepted block field by field, its accumulator by `getLsbD_leftAlign_high` and `getLsbD_leftAlign_low`. -/
theorem writeAcceptanceLoadsTheValue : Obligations.WriteAcceptanceLoadsTheValue := by
  intro value width s hi hg hmin hmax
  have hw : legalWidth width := ⟨hmin, hmax⟩
  refine ⟨_, exec_write_accepted hi hg value hw, rfl, rfl, remOfWidth_val hw, rfl, rfl,
    fun _ => getLsbD_leftAlign_high value hw, fun _ => getLsbD_leftAlign_low value, fun value' hsame => ?_,
    rfl, rfl, rfl, rfl, rfl, rfl, rfl, rfl⟩
  rw [exec_write_accepted hi hg value' hw, acceptWriteBlock, leftAlign_congr hw hsame]
  rfl

/-! ### One tick, one return -/

section
variable {s : State} {es : List Event}

theorem step_tick_run (hl : s.params.legal) (he : s.events = .tick :: es) (hr : s.blk.ph = .run) :
    step s = engineStep { s with events := es } :=
  (step_event hl he).trans (takeTick_run hr)

/-- A tick with no bit left finishes the WRITE (R80). -/
theorem step_tick_finish (hl : s.params.legal) (he : s.events = .tick :: es) (hr : s.blk.ph = .run)
    (h0 : s.blk.rem.val = 0) : step s = .next (s.after { s.blk with guard := .ready, ph := .idle } []) := by
  rw [step_tick_run hl he hr, engineStep_finish (s := { s with events := es }) h0]
  simp [finishWrite, State.after, he]

/-- A tick with bits left and the packet full sends it and waits (R78). -/
theorem step_tick_overflow (hl : s.params.legal) (he : s.events = .tick :: es) (hr : s.blk.ph = .run)
    (h0 : 0 < s.blk.rem.val) (hf : s.blk.active.vbc.toNat = s.params.capBits) :
    step s = .next (s.after { s.blk with ph := .sendWait } [.send (image s.params s.blk.active)]) := by
  rw [step_tick_run hl he hr, engineStep_overflow (s := { s with events := es }) h0 hf]
  simp [overflowSend, emitSend, State.put, State.after, he]

/-- A tick with bits left and room in the packet stores one chunk (R79). -/
theorem step_tick_store (hl : s.params.legal) (he : s.events = .tick :: es) (hr : s.blk.ph = .run)
    (h0 : 0 < s.blk.rem.val) (hf : s.blk.active.vbc.toNat ≠ s.params.capBits) {old : Byte}
    (ho : Memory.read s.params.cap s.blk.active.data (byteIndex s.blk.active.vbc) = some old) :
    step s = .next (s.after (storeBlock s.blk old) []) := by
  rw [step_tick_run hl he hr, engineStep_store (s := { s with events := es }) h0 hf,
    storeChunk_of_read (s := { s with events := es }) ho]
  simp [State.after, he]

/-- The return of the collaborator at `PH = SEND_WAIT` (R106). -/
theorem step_sendRet_waiting {st : Byte} (hl : s.params.legal) (he : s.events = .sendRet st :: es)
    (hw : s.blk.ph = .sendWait) : step s = .next (s.after (sendRetBlock s.params.cap s.blk) []) := by
  rw [step_event hl he, takeEvent, takeSendRet, if_pos hw]
  simp [State.after, he]

end

/-- Settles O14: the finish writes `GUARD` and `PH` only. -/
theorem finishStepRestoresReady : Obligations.FinishStepRestoresReady := by
  intro s es hl he hr h0
  exact ⟨_, step_tick_finish hl he hr h0, rfl, rfl, rfl, rfl, rfl, rfl, rfl, rfl, rfl, by simp [he], rfl, by simp⟩

/-- Settles O13: the stored byte is there by `DataSized`, bit by bit the store is `Packet.bit_storePacket`, and the frame is that
of `storeBlock`. -/
theorem storeStepOrsOneChunk : Obligations.StoreStepOrsOneChunk := by
  intro s es hl hd he hr h0 hroom a p byte off n
  have hlen : p.data.length = s.params.cap := dataSized_iff.mp hd a
  have hbyte : byte < s.params.cap := byteIndex_lt hroom
  have hread := Memory.read_isSome hlen hbyte
  obtain ⟨hvbc, hfit⟩ := advanceVbc_toNat hl (rem := s.blk.rem) hroom
  obtain ⟨-, hn, -⟩ := chunkLen_bounds p.vbc h0
  have hbit := Packet.bit_storePacket (Memory.getElem?_of_read hread) s.blk.acc hn
  refine ⟨_, _, step_tick_store hl he hr h0 hroom.ne hread, hread, ?_⟩
  rw [State.after_blk, storeBlock_pkt_act]
  refine ⟨Memory.read_write_same hlen hbyte _, fun j hj => Memory.read_write_other _ _ hj _, Memory.length_write _ _ _, hvbc,
    rfl, rfl, fun pos _ => hbit pos, fun hclean k hk => ?_, rfl, advanceRem_val _ _, storeBlock_pkt_other _ _,
    storeBlock_seq _ _, storeBlock_srcId _ _, storeBlock_guard _ _, (storeBlock_ph _ _).trans hr, storeBlock_opk _ _, rfl,
    by simp [he], rfl, List.append_nil _⟩
  have hempty : p.bit (p.vbc.toNat + k) = false := hclean.2 _ ((Nat.add_lt_add_left hk _).trans_le hfit) (Nat.le_add_right _ _)
  rw [hbit, if_pos ⟨Nat.le_add_right _ _, Nat.add_lt_add_left hk _⟩, Nat.add_sub_cancel_left]
  exact (congrArg (· || _) hempty).trans (Bool.false_or _)

/-- The block once an overflow send of `b` has been answered: the packets rotated, the WRITE going on (R78, R106). -/
def resumeBlock (cap : Nat) (b : Block) : Block := { rotate cap b with ph := .run }

@[simp] theorem resumeBlock_ph (cap : Nat) (b : Block) : (resumeBlock cap b).ph = .run := rfl
@[simp] theorem resumeBlock_seq (cap : Nat) (b : Block) : (resumeBlock cap b).seq = b.seq + 1#8 := rotate_seq_val cap b
@[simp] theorem resumeBlock_srcId (cap : Nat) (b : Block) : (resumeBlock cap b).srcId = b.srcId := rotate_srcId cap b
@[simp] theorem resumeBlock_guard (cap : Nat) (b : Block) : (resumeBlock cap b).guard = b.guard := rotate_guard cap b
@[simp] theorem resumeBlock_acc (cap : Nat) (b : Block) : (resumeBlock cap b).acc = b.acc := rotate_acc cap b
@[simp] theorem resumeBlock_rem (cap : Nat) (b : Block) : (resumeBlock cap b).rem = b.rem := rotate_rem cap b
@[simp] theorem resumeBlock_opk (cap : Nat) (b : Block) : (resumeBlock cap b).opk = b.opk := rotate_opk cap b
@[simp] theorem resumeBlock_act (cap : Nat) (b : Block) : (resumeBlock cap b).act = b.act.other := rotate_act cap b

theorem resumeBlock_active (cap : Nat) (b : Block) : (resumeBlock cap b).active =
    { vbc := 0#8, seq := b.seq + 1#8, sid := b.srcId, data := Memory.zeroed cap } :=
  (Block.active_congr rfl rfl rfl).trans (rotate_active cap b)

theorem resumeBlock_pkt_act (cap : Nat) (b : Block) : (resumeBlock cap b).pkt b.act = b.active :=
  (pkt_eq_of_fields rfl rfl _).trans (rotate_pkt_act cap b)

/-- The return after an overflow send. -/
theorem sendRetBlock_overflow {b : Block} (hk : b.opk = .write) (cap : Nat) :
    sendRetBlock cap { b with ph := .sendWait } = resumeBlock cap b := by
  have hrotate : rotate cap { b with ph := .sendWait } = { rotate cap b with ph := .sendWait } := by
    simpa using rotate_sequencer cap b b.opk .sendWait
  rw [sendRetBlock_write (b := { b with ph := .sendWait }) hk, hrotate, resumeBlock]

/-- Settles O15: the send of `step_tick_overflow`, then the return to `resumeBlock`. -/
theorem overflowSendsThenRotates : Obligations.OverflowSendsThenRotates := by
  intro s st es hl he hr hk h0 hf
  have hwait : (s.after { s.blk with ph := .sendWait } [.send (image s.params s.blk.active)]).events =
    .sendRet st :: es := by simp [he]
  have hback := step_sendRet_waiting (s := s.after _ _) hl hwait rfl
  rw [State.after_blk, State.after_params, sendRetBlock_overflow hk] at hback
  refine ⟨_, _, step_tick_overflow hl he hr h0 hf, ?sent, ?count, hback, ?_⟩
  case sent => simp [State.after, he]
  case count => rw [image_vbc]; exact hf
  simp only [State.after_blk, resumeBlock_active, resumeBlock_pkt_act]
  simpa [hk, he, State.after] using fun j => Memory.read_zeroed (j := j)

end Sys2Proof.Machine
end

section
/-! PROOFS. The bit-serial loop (41_write_data.md R81) as a fold over a list of bits: what one bit does to the packets, and
from it the valid bit count law (R84) and the concatenation law (R85). -/

namespace Sys2Proof.Machine

/-! ### The loop over a list of bits -/

/-- R81's loop over a list of bits, first bit first. -/
def packBits (ps : Params) (bits : List Bool) (x : Block × List (List Byte)) : Block × List (List Byte) :=
  bits.foldl (fun y v => appendBit ps v y) x

@[simp] theorem packBits_nil (ps : Params) (x : Block × List (List Byte)) : packBits ps [] x = x := rfl

@[simp] theorem packBits_cons (ps : Params) (v : Bool) (bits : List Bool) (x : Block × List (List Byte)) :
    packBits ps (v :: bits) x = packBits ps bits (appendBit ps v x) := rfl

theorem packBits_append (ps : Params) (as bs : List Bool) (x : Block × List (List Byte)) :
    packBits ps (as ++ bs) x = packBits ps bs (packBits ps as x) := List.foldl_append

@[simp] theorem valueBits_zero (value : Value) : valueBits value 0 = [] := rfl

/-- The most significant of the low `k + 1` bits comes first (R34). -/
theorem valueBits_succ (value : Value) (k : Nat) : valueBits value (k + 1) = value.getLsbD k :: valueBits value k := by
  rw [valueBits, valueBits, List.range_succ_eq_map, List.map_cons, List.map_map]
  refine congrArg (value.getLsbD k :: ·) (List.map_congr_left fun j _ => ?_)
  exact congrArg value.getLsbD (by omega)

@[simp] theorem length_valueBits (value : Value) (w : Nat) : (valueBits value w).length = w := by simp [valueBits]

/-- R81's loop is the loop over the value's bits. -/
theorem appendBits_eq_packBits (ps : Params) (value : Value) (w : Nat) (x : Block × List (List Byte)) :
    appendBits ps value w x = packBits ps (valueBits value w) x := by
  induction w generalizing x with
  | zero => rfl
  | succ k ih => rw [appendBits, ih, valueBits_succ, packBits_cons]

/-- The images sent before stay in front and have no influence. -/
theorem flushIfFull_sent_append (ps : Params) (b : Block) (pre l : List (List Byte)) :
    flushIfFull ps (b, pre ++ l) = ((flushIfFull ps (b, l)).1, pre ++ (flushIfFull ps (b, l)).2) := by
  unfold flushIfFull
  split <;> simp

theorem packBits_sent_append (ps : Params) (bits : List Bool) (b : Block) (pre l : List (List Byte)) :
    packBits ps bits (b, pre ++ l) = ((packBits ps bits (b, l)).1, pre ++ (packBits ps bits (b, l)).2) := by
  induction bits generalizing b l with
  | nil => rfl
  | cons v bits ih => simp only [packBits_cons, appendBit, flushIfFull_sent_append, ih]

/-- Several big-step WRITEs are one loop over all their bits. -/
theorem writeAll_eq_packBits (ps : Params) (ws : List (Value × Byte)) (b : Block) :
    writeAll ps ws b = packBits ps (writtenBits ws) (b, []) := by
  induction ws generalizing b with
  | nil => rfl
  | cons x rest ih =>
    have hbits : writtenBits (x :: rest) = valueBits x.1 x.2.toNat ++ writtenBits rest := List.flatMap_cons
    have hfirst := appendBits_eq_packBits ps x.1 x.2.toNat (b, [])
    have hrest := packBits_sent_append ps (writtenBits rest) (writeBig ps b x.1 x.2).1 (writeBig ps b x.1 x.2).2 []
    rw [List.append_nil] at hrest
    rw [hbits, packBits_append, ← hfirst]
    simp only [writeAll, ih]
    exact hrest.symm

theorem length_writtenBits (ws : List (Value × Byte)) : (writtenBits ws).length = totalWidth ws := by
  simp [writtenBits, totalWidth, List.length_flatMap]

/-! ### One bit into a packet -/

/-- A packet that takes one more bit, at position `vbc` (R81). -/
def Packet.push (p : Packet) (v : Bool) : Packet := { p.setBit p.vbc.toNat v with vbc := p.vbc + 1#8 }

theorem pushBit_eq_push (v : Bool) (b : Block) : pushBit v b = b.setPkt b.act (b.active.push v) := rfl

@[simp] theorem Packet.length_push (p : Packet) (v : Bool) : (p.push v).data.length = p.data.length :=
  Packet.length_setBit p _ v

/-- The count advances by one; it does not wrap in a packet with room (R23, R89). -/
theorem Packet.push_vbc_toNat {p : Packet} (h : p.vbc.toNat < 255) (v : Bool) : (p.push v).vbc.toNat = p.vbc.toNat + 1 := by
  have hvbc : (p.push v).vbc = p.vbc + 1#8 := rfl
  rw [hvbc, BitVec.toNat_add]
  exact Nat.mod_eq_of_lt (Nat.succ_lt_succ h)

theorem getLsbD_one_shiftLeft {k i : Nat} (hi : i < 8) : ((1#8 : Byte) <<< k).getLsbD i = decide (i = k) := by
  rw [BitVec.getLsbD_shiftLeft, BitVec.getLsbD_one, Bool.eq_iff_iff]
  simp only [hi, decide_true, Bool.true_and, Bool.and_eq_true, Bool.not_eq_true', decide_eq_false_iff_not, decide_eq_true_eq]
  omega

/-- Setting a bit position of the array sets that position and no other (R33, R81). -/
theorem Packet.bit_setBit {p : Packet} {pos : Nat} (h : pos / 8 < p.data.length) (v : Bool) (q : Nat) :
    (p.setBit pos v).bit q = if q = pos then v else p.bit q := by
  by_cases hb : q / 8 = pos / 8
  · have hq : 7 - q % 8 < 8 := by omega
    have hpos : 7 - q % 8 = 7 - pos % 8 ↔ q = pos := by omega
    simp only [Packet.bit, Packet.setBit, Memory.write, hb, List.getElem?_set_self h, Option.getD_some]
    cases v
    · simp only [Bool.false_eq_true, if_false, BitVec.getLsbD_and, BitVec.getLsbD_not, getLsbD_one_shiftLeft hq, hpos, hq]
      by_cases he : q = pos <;> simp [he]
    · simp only [if_true, BitVec.getLsbD_or, getLsbD_one_shiftLeft hq, hpos]
      by_cases he : q = pos <;> simp [he]
  · have hne : q ≠ pos := fun he => hb (he ▸ rfl)
    simp only [Packet.bit, Packet.setBit, Memory.write, List.getElem?_set_ne (Ne.symm hb), if_neg hne]

/-- Pushing a bit appends it to the packet's bits (R34). -/
theorem packetBits_push {p : Packet} (hv : p.vbc.toNat < 255) (h : p.vbc.toNat / 8 < p.data.length) (v : Bool) :
    packetBits (p.push v) = packetBits p ++ [v] := by
  have hbit (q : Nat) : (p.push v).bit q = if q = p.vbc.toNat then v else p.bit q := Packet.bit_setBit h v q
  rw [packetBits, Packet.push_vbc_toNat hv, List.range_succ, List.map_append, packetBits]
  refine congrArg₂ (· ++ ·) (List.map_congr_left fun q hq => ?_) (by simp [hbit])
  rw [hbit, if_neg (List.mem_range.mp hq).ne]

/-! ### One bit into the block -/

@[simp] theorem pushBit_seq (v : Bool) (b : Block) : (pushBit v b).seq = b.seq := Block.setPkt_seq _ _ _
@[simp] theorem pushBit_srcId (v : Bool) (b : Block) : (pushBit v b).srcId = b.srcId := Block.setPkt_srcId _ _ _

/-- The active packet of a block whose active packet is replaced. -/
theorem Block.active_setPkt_act (b : Block) (p : Packet) : (b.setPkt b.act p).active = p := by
  rw [Block.active, Block.setPkt_act, Block.pkt_setPkt_same]

theorem pushBit_active (v : Bool) (b : Block) : (pushBit v b).active = b.active.push v := Block.active_setPkt_act b _

theorem flushIfFull_full {ps : Params} {b : Block} (h : b.active.vbc.toNat = ps.capBits) (l : List (List Byte)) :
    flushIfFull ps (b, l) = (rotate ps.cap b, l ++ [image ps b.active]) := if_pos h

theorem flushIfFull_room {ps : Params} {b : Block} (h : b.active.vbc.toNat ≠ ps.capBits) (l : List (List Byte)) :
    flushIfFull ps (b, l) = (b, l) := if_neg h

theorem rotate_active_vbc (cap : Nat) (b : Block) : (rotate cap b).active.vbc = 0#8 := by rw [rotate_active]

theorem capBits_bounds {ps : Params} (hl : ps.legal) : 8 ≤ ps.capBits ∧ ps.capBits ≤ 248 := by
  obtain ⟨hmin, hmax⟩ := hl
  unfold Params.capBits
  omega

section
variable {ps : Params} (hl : ps.legal)
include hl

/-- After the full test the active packet has room (R78, R81). -/
theorem flushIfFull_vbc_lt {x : Block × List (List Byte)} (hv : x.1.active.vbc.toNat ≤ ps.capBits) :
    (flushIfFull ps x).1.active.vbc.toNat < ps.capBits := by
  obtain ⟨b, l⟩ := x
  by_cases hf : b.active.vbc.toNat = ps.capBits
  · rw [flushIfFull_full hf, rotate_active_vbc]
    exact Nat.lt_of_lt_of_le (by decide : 0 < 8) (capBits_bounds hl).1
  · rw [flushIfFull_room hf]
    exact lt_of_le_of_ne hv hf

/-- One bit adds one to the bits held and sent, and leaves a packet that is not empty (R84). -/
theorem appendBit_count {x : Block × List (List Byte)} (hv : x.1.active.vbc.toNat ≤ ps.capBits) (v : Bool) :
    (appendBit ps v x).1.active.vbc.toNat + ps.capBits * (appendBit ps v x).2.length =
      x.1.active.vbc.toNat + ps.capBits * x.2.length + 1 ∧
    (appendBit ps v x).1.active.vbc.toNat ≤ ps.capBits ∧ 0 < (appendBit ps v x).1.active.vbc.toNat := by
  have hroom := flushIfFull_vbc_lt hl hv
  obtain ⟨-, hcap⟩ := capBits_bounds hl
  have hpush : (appendBit ps v x).1.active.vbc.toNat = (flushIfFull ps x).1.active.vbc.toNat + 1 := by
    rw [appendBit, pushBit_active, Packet.push_vbc_toNat (by omega)]
  have hsent : (appendBit ps v x).2 = (flushIfFull ps x).2 := rfl
  have hflush : (flushIfFull ps x).1.active.vbc.toNat + ps.capBits * (flushIfFull ps x).2.length =
      x.1.active.vbc.toNat + ps.capBits * x.2.length := by
    obtain ⟨b, l⟩ := x
    by_cases hf : b.active.vbc.toNat = ps.capBits
    · rw [flushIfFull_full hf, rotate_active_vbc, hf, List.length_append, List.length_singleton, Nat.mul_succ]
      simp [Nat.add_comm]
    · rw [flushIfFull_room hf]
  rw [hpush, hsent]
  omega

/-- The bits held in the active packet and sent in full ones add up (R83, R84). -/
theorem packBits_count (bits : List Bool) {x : Block × List (List Byte)} (hv : x.1.active.vbc.toNat ≤ ps.capBits) :
    (packBits ps bits x).1.active.vbc.toNat + ps.capBits * (packBits ps bits x).2.length =
      x.1.active.vbc.toNat + ps.capBits * x.2.length + bits.length ∧
    (packBits ps bits x).1.active.vbc.toNat ≤ ps.capBits ∧
    (0 < x.1.active.vbc.toNat + bits.length → 0 < (packBits ps bits x).1.active.vbc.toNat) := by
  induction bits generalizing x with
  | nil => exact ⟨rfl, hv, id⟩
  | cons v bits ih =>
    obtain ⟨hcount, hle, hpos⟩ := appendBit_count hl hv v
    obtain ⟨hcounts, hles, hposs⟩ := ih hle
    refine ⟨?_, hles, fun _ => hposs (by omega)⟩
    rw [packBits_cons, hcounts, hcount, List.length_cons]
    omega

end

/-- A count held as `f` bits in a packet that is not empty and `n` full packets determines both (R83, R84). -/
theorem full_packets_of_count {f n c total : Nat} (h : f + c * n = total) (hpos : 0 < f) (hle : f ≤ c) :
    f = (total - 1) % c + 1 ∧ n = ceilDiv total c - 1 := by
  have hlt : f - 1 < c := by omega
  have hmod : total - 1 = f - 1 + c * n := by omega
  have hdiv : total + c - 1 = f - 1 + c * (n + 1) := by rw [Nat.mul_succ]; omega
  constructor
  · rw [hmod, Nat.add_mul_mod_self_left, Nat.mod_eq_of_lt hlt]
    omega
  · rw [ceilDiv, hdiv, Nat.add_mul_div_left _ _ (by omega), Nat.div_eq_of_lt hlt]
    omega

/-- Settles O52: from an empty packet all bits counted are those of the WRITEs. -/
theorem validBitCountIsTheTotalWidth : Obligations.ValidBitCountIsTheTotalWidth := by
  intro ps b ws hl hempty _
  rw [writeAll_eq_packBits]
  have hzero : b.active.vbc.toNat = 0 := congrArg BitVec.toNat hempty
  obtain ⟨hcount, hle, hpos⟩ := packBits_count hl (writtenBits ws) (x := (b, [])) (hzero ▸ Nat.zero_le _)
  simp only [hzero, length_writtenBits, List.length_nil, Nat.mul_zero, Nat.zero_add] at hcount hpos
  refine ⟨fun h0 => ?_, fun h0 => full_packets_of_count hcount (hpos h0) hle⟩
  have hnone : writtenBits ws = [] := List.length_eq_zero_iff.mp ((length_writtenBits ws).trans h0)
  rw [hnone]
  exact ⟨hempty, rfl⟩

/-! ### The bits packed so far -/

/-- The meaningful bits of the images sent, in order, and of the active packet after them (R85). -/
def packedBits (x : Block × List (List Byte)) : List Bool := x.2.flatMap imageBits ++ packetBits x.1.active

/-- An image carries its packet's bits (R34, R36). -/
theorem imageBits_image (ps : Params) (p : Packet) : imageBits (image ps p) = packetBits p := by
  simp only [imageBits, image_vbc, image_bit, Option.getD_some, packetBits]

theorem flushIfFull_packedBits (ps : Params) (x : Block × List (List Byte)) :
    packedBits (flushIfFull ps x) = packedBits x := by
  obtain ⟨b, l⟩ := x
  by_cases hf : b.active.vbc.toNat = ps.capBits
  · have hempty : packetBits (rotate ps.cap b).active = [] := by simp [packetBits, rotate_active_vbc]
    rw [flushIfFull_full hf]
    simp [packedBits, hempty, imageBits_image]
  · rw [flushIfFull_room hf]

theorem flushIfFull_dataSized {ps : Params} {x : Block × List (List Byte)} (hd : DataSized ps x.1) :
    DataSized ps (flushIfFull ps x).1 := by
  unfold flushIfFull
  split
  · exact hd.rotate
  · exact hd

theorem DataSized.pushBit {ps : Params} {b : Block} (hd : DataSized ps b) (v : Bool) : DataSized ps (pushBit v b) :=
  hd.setPkt b.act ((Packet.length_push _ v).trans (dataSized_iff.mp hd b.act))

theorem appendBit_packedBits {ps : Params} (hl : ps.legal) {x : Block × List (List Byte)} (hd : DataSized ps x.1)
    (hv : x.1.active.vbc.toNat ≤ ps.capBits) (v : Bool) : packedBits (appendBit ps v x) = packedBits x ++ [v] := by
  have hroom := flushIfFull_vbc_lt hl hv
  obtain ⟨-, hcap⟩ := capBits_bounds hl
  have hlen : (flushIfFull ps x).1.active.data.length = ps.cap := dataSized_iff.mp (flushIfFull_dataSized hd) _
  have hpush := packetBits_push (by omega) (hlen ▸ byteIndex_lt hroom) v
  rw [← flushIfFull_packedBits ps x, packedBits, appendBit, pushBit_active, hpush, packedBits, List.append_assoc]

theorem packBits_packedBits {ps : Params} (hl : ps.legal) (bits : List Bool) {x : Block × List (List Byte)}
    (hd : DataSized ps x.1) (hv : x.1.active.vbc.toNat ≤ ps.capBits) :
    packedBits (packBits ps bits x) = packedBits x ++ bits := by
  induction bits generalizing x with
  | nil => exact (List.append_nil _).symm
  | cons v bits ih =>
    obtain ⟨-, hle, -⟩ := appendBit_count hl hv v
    have hsized : DataSized ps (appendBit ps v x).1 := (flushIfFull_dataSized hd).pushBit v
    rw [packBits_cons, ih hsized hle, appendBit_packedBits hl hd hv, List.append_assoc]
    rfl

/-- Settles O51: every bit of the loop is appended to the bits packed so far. -/
theorem packedBitsAreTheConcatenation : Obligations.PackedBitsAreTheConcatenation := by
  intro ps b ws hl hd hclean _
  rw [writeAll_eq_packBits]
  exact packBits_packedBits hl (writtenBits ws) (x := (b, [])) hd hclean.1

end Sys2Proof.Machine
end

section
/-! PROOFS. The machine's WRITE is the bit-serial loop (41_write_data.md R81): a chunk of `n` bits is `n` single bits, the full
test can only succeed where a chunk ends, and so every step of the machine leaves the rest of the loop to be run as it was. -/

namespace Sys2Proof.Machine

/-! ### Several bits into one packet -/

/-- A packet that takes the bits of a list, first bit first. -/
def Packet.pushAll (p : Packet) (bits : List Bool) : Packet := bits.foldl Packet.push p

@[simp] theorem Packet.pushAll_nil (p : Packet) : p.pushAll [] = p := rfl
@[simp] theorem Packet.pushAll_cons (p : Packet) (v : Bool) (bits : List Bool) :
    p.pushAll (v :: bits) = (p.push v).pushAll bits := rfl

/-- Only the count and the data change. -/
theorem Packet.pushAll_header (bits : List Bool) (p : Packet) :
    (p.pushAll bits).seq = p.seq ∧ (p.pushAll bits).sid = p.sid ∧ (p.pushAll bits).data.length = p.data.length := by
  induction bits generalizing p with
  | nil => exact ⟨rfl, rfl, rfl⟩
  | cons v bits ih =>
    obtain ⟨hseq, hsid, hlen⟩ := ih (p.push v)
    exact ⟨hseq, hsid, hlen.trans (Packet.length_push p v)⟩

theorem Packet.pushAll_vbc_toNat (bits : List Bool) {p : Packet} (h : p.vbc.toNat + bits.length ≤ 255) :
    (p.pushAll bits).vbc.toNat = p.vbc.toNat + bits.length := by
  induction bits generalizing p with
  | nil => rfl
  | cons v bits ih =>
    rw [List.length_cons] at h
    have hpush := Packet.push_vbc_toNat (p := p) (by omega) v
    rw [Packet.pushAll_cons, ih (by omega), hpush, List.length_cons]
    omega

/-- Bit by bit, the pushed bits stand from `vbc` on and the others are kept (R81). -/
theorem Packet.bit_pushAll (bits : List Bool) {p : Packet} (hfit : p.vbc.toNat + bits.length ≤ 8 * p.data.length)
    (hmax : p.vbc.toNat + bits.length ≤ 255) (pos : Nat) :
    (p.pushAll bits).bit pos =
      if p.vbc.toNat ≤ pos ∧ pos < p.vbc.toNat + bits.length then bits[pos - p.vbc.toNat]?.getD false else p.bit pos := by
  induction bits generalizing p with
  | nil => exact (if_neg (by simp)).symm
  | cons v bits ih =>
    rw [List.length_cons] at hfit hmax ⊢
    have hvbc := Packet.push_vbc_toNat (p := p) (by omega) v
    have hbit : (p.push v).bit pos = if pos = p.vbc.toNat then v else p.bit pos := Packet.bit_setBit (by omega) v pos
    rw [Packet.pushAll_cons, ih (by rw [hvbc, Packet.length_push]; omega) (by omega), hvbc, hbit]
    rcases lt_trichotomy pos p.vbc.toNat with hlt | rfl | hgt
    · rw [if_neg (by omega), if_neg hlt.ne, if_neg (by omega)]
    · simp
    · obtain ⟨k, rfl⟩ : ∃ k, pos = p.vbc.toNat + 1 + k := ⟨pos - (p.vbc.toNat + 1), by omega⟩
      have hidx : p.vbc.toNat + 1 + k - p.vbc.toNat = k + 1 := by omega
      rw [if_neg hgt.ne', hidx, List.getElem?_cons_succ, Nat.add_sub_cancel_left]
      exact if_congr (by omega) rfl rfl

/-- Packets with the same header and the same data bits are the same (R14, R33). -/
theorem Packet.ext_of_bits {p q : Packet} (hvbc : p.vbc = q.vbc) (hseq : p.seq = q.seq) (hsid : p.sid = q.sid)
    (hlen : p.data.length = q.data.length) (hbits : ∀ pos, p.bit pos = q.bit pos) : p = q := by
  have hdata : p.data = q.data := by
    refine List.ext_getElem hlen fun j hp hq => BitVec.eq_of_getLsbD_eq fun i hi => ?_
    have hbyte : (8 * j + (7 - i)) / 8 = j := by omega
    have hoff : 7 - (8 * j + (7 - i)) % 8 = i := by omega
    have hbit := hbits (8 * j + (7 - i))
    rw [Packet.bit, Packet.bit, hbyte, hoff] at hbit
    simpa [hp, hq] using hbit
  cases p
  cases q
  simp_all

/-- The top `n` bits of the accumulator, most significant first (R17). -/
def topBits (acc : Value) (n : Nat) : List Bool := (List.range n).map fun k => acc.getLsbD (31 - k)

@[simp] theorem length_topBits (acc : Value) (n : Nat) : (topBits acc n).length = n := by simp [topBits]

/-- A store of `n` bits into a clean packet pushes the accumulator's top `n` bits one after another (R79, R81). -/
theorem storePacket_eq_pushAll {ps : Params} (hl : ps.legal) {p : Packet} (hc : p.Clean ps) (hlen : p.data.length = ps.cap)
    (hroom : p.vbc.toNat < ps.capBits) {old : Byte} (ho : p.data[byteIndex p.vbc]? = some old) (acc : Value) {rem : Fin 33}
    (h0 : 0 < rem.val) :
    storePacket p old acc (chunkLen p.vbc rem) = p.pushAll (topBits acc (chunkLen p.vbc rem)) := by
  obtain ⟨hvbc, hfit⟩ := advanceVbc_toNat hl (rem := rem) hroom
  obtain ⟨-, hn, -⟩ := chunkLen_bounds p.vbc h0
  obtain ⟨-, hcap⟩ := capBits_bounds hl
  obtain ⟨hseq, hsid, hlength⟩ := p.pushAll_header (topBits acc (chunkLen p.vbc rem))
  have hmax : p.vbc.toNat + (topBits acc (chunkLen p.vbc rem)).length ≤ 255 := by rw [length_topBits]; omega
  have hsize : 8 * p.data.length = ps.capBits := congrArg (8 * ·) hlen
  refine Packet.ext_of_bits ?_ hseq.symm hsid.symm ((Memory.length_write _ _ _).trans hlength.symm) fun pos => ?_
  · refine BitVec.eq_of_toNat_eq (hvbc.trans ?_)
    rw [Packet.pushAll_vbc_toNat _ hmax, length_topBits]
  · rw [Packet.bit_storePacket ho acc hn, Packet.bit_pushAll _ (by rw [hsize, length_topBits]; exact hfit) hmax, length_topBits]
    by_cases hin : p.vbc.toNat ≤ pos ∧ pos < p.vbc.toNat + chunkLen p.vbc rem
    · have hempty : p.bit pos = false := hc.2 pos (by omega) hin.1
      have hk : pos - p.vbc.toNat < chunkLen p.vbc rem := by omega
      rw [if_pos hin, if_pos hin, hempty, Bool.false_or]
      simp [topBits, hk]
    · rw [if_neg hin, if_neg hin]

/-! ### Several bits into the block -/

@[simp] theorem Block.setPkt_setPkt (b : Block) (i : PacketId) (p q : Packet) : (b.setPkt i p).setPkt i q = b.setPkt i q := by
  cases i <;> rfl

/-- Bits that fit go into the active packet, and nothing is sent (R81). -/
theorem packBits_of_fit {ps : Params} (bits : List Bool) {b : Block} (hcap : ps.capBits ≤ 248)
    (hfit : b.active.vbc.toNat + bits.length ≤ ps.capBits) (l : List (List Byte)) :
    packBits ps bits (b, l) = (b.setPkt b.act (b.active.pushAll bits), l) := by
  induction bits generalizing b with
  | nil => rw [Packet.pushAll_nil, Block.active, Block.setPkt_pkt_self, packBits_nil]
  | cons v bits ih =>
    rw [List.length_cons] at hfit
    have hfirst : appendBit ps v (b, l) = (pushBit v b, l) := by rw [appendBit, flushIfFull_room (by omega)]
    have hvbc : (pushBit v b).active.vbc.toNat = b.active.vbc.toNat + 1 := by
      rw [pushBit_active, Packet.push_vbc_toNat (by omega)]
    rw [packBits_cons, hfirst, ih (by omega), pushBit_active, pushBit_eq_push, Block.setPkt_act, Block.setPkt_setPkt,
      Packet.pushAll_cons]

/-- With bits left, the loop's own full test makes a flush before it superfluous (R81). -/
theorem packBits_flushIfFull {ps : Params} (hl : ps.legal) {bits : List Bool} (hne : bits ≠ [])
    (x : Block × List (List Byte)) : packBits ps bits (flushIfFull ps x) = packBits ps bits x := by
  obtain ⟨v, bits, rfl⟩ := List.exists_cons_of_ne_nil hne
  have htwice : flushIfFull ps (flushIfFull ps x) = flushIfFull ps x := by
    obtain ⟨b, l⟩ := x
    by_cases hf : b.active.vbc.toNat = ps.capBits
    · have hroom : (rotate ps.cap b).active.vbc.toNat ≠ ps.capBits := by
        have := (capBits_bounds hl).1
        rw [rotate_active_vbc]
        simp
        omega
      rw [flushIfFull_full hf, flushIfFull_room hroom]
    · rw [flushIfFull_room hf, flushIfFull_room hf]
  rw [packBits_cons, packBits_cons, appendBit, appendBit, htwice]

theorem packBits_srcId (ps : Params) (bits : List Bool) (x : Block × List (List Byte)) :
    (packBits ps bits x).1.srcId = x.1.srcId := by
  induction bits generalizing x with
  | nil => rfl
  | cons v bits ih =>
    rw [packBits_cons, ih, appendBit, pushBit_srcId, flushIfFull]
    split
    · exact rotate_srcId _ _
    · rfl

/-- The counter advances with every image (R39, R83). -/
theorem packBits_seq (ps : Params) (bits : List Bool) (x : Block × List (List Byte)) :
    ((packBits ps bits x).1.seq.toNat + x.2.length) % 256 = (x.1.seq.toNat + (packBits ps bits x).2.length) % 256 := by
  induction bits generalizing x with
  | nil => rfl
  | cons v bits ih =>
    have hfirst : ((appendBit ps v x).1.seq.toNat + x.2.length) % 256 =
        (x.1.seq.toNat + (appendBit ps v x).2.length) % 256 := by
      rw [appendBit, pushBit_seq, flushIfFull]
      split
      · rw [rotate_seq_toNat, List.length_append, List.length_singleton]
        omega
      · rfl
    have hrest := ih (appendBit ps v x)
    rw [packBits_cons]
    omega

/-! ### The packets apart from the sequencer's registers -/

/-- The packets, `SEQ` and `SRC_ID` of `b` with the sequencer's registers of `c`: all of a block that the loop looks at. -/
def Block.withSequencerOf (b c : Block) : Block :=
  { b with guard := c.guard, acc := c.acc, rem := c.rem, ph := c.ph, opk := c.opk }

@[simp] theorem Block.withSequencerOf_active (b c : Block) : (b.withSequencerOf c).active = b.active :=
  Block.active_congr rfl rfl rfl

theorem rotate_withSequencerOf (cap : Nat) (b c : Block) :
    rotate cap (b.withSequencerOf c) = (rotate cap b).withSequencerOf c := by
  simp only [rotate, prepare, bumpSeq, Block.act, Block.withSequencerOf]
  cases PacketId.ofParity (b.seq + 1#8).toNat <;> rfl

/-- Apart from the registers a store only replaces the active packet (R79). -/
theorem storeBlock_withSequencerOf (b c : Block) (old : Byte) : (storeBlock b old).withSequencerOf c =
    (b.withSequencerOf c).setPkt b.act (storePacket b.active old b.acc (chunkLen b.active.vbc b.rem)) := by
  simp only [storeBlock, Block.withSequencerOf]
  cases b.act <;> rfl

/-! ### The simulation -/

/-- The top `REM` bits of `ACC` are the low `REM` bits of the value (R17, R76). -/
def Pending (b : Block) (value : Value) : Prop :=
  ∀ k, k < b.rem.val → b.acc.getLsbD (31 - k) = value.getLsbD (b.rem.val - 1 - k)

/-- The pending bits of the value are a chunk of `ACC` and those pending after it. -/
theorem Pending.valueBits_eq {b : Block} {value : Value} (h : Pending b value) {n : Nat} (hn : n ≤ b.rem.val) :
    valueBits value b.rem.val = topBits b.acc n ++ valueBits value (b.rem.val - n) := by
  obtain ⟨m, hm⟩ : ∃ m, b.rem.val = n + m := ⟨b.rem.val - n, by omega⟩
  rw [hm, Nat.add_sub_cancel_left, valueBits, List.range_add, List.map_append, List.map_map]
  refine congrArg₂ (· ++ ·) (List.map_congr_left fun k hk => ?_) (List.map_congr_left fun k _ => ?_)
  · rw [h k (by have := List.mem_range.mp hk; omega), hm]
  · exact congrArg value.getLsbD (by simp; omega)

/-- A block with pending bits is as one that has just accepted a WRITE of `REM` bits. -/
theorem Pending.appendedSoFar {b : Block} {value : Value} (h : Pending b value) :
    AppendedSoFar b b value (BitVec.ofNat 8 b.rem.val) := by
  have hwidth : (BitVec.ofNat 8 b.rem.val).toNat = b.rem.val := Nat.mod_eq_of_lt (by have := b.rem.isLt; omega)
  exact ⟨rfl, rfl, hwidth.ge, by rw [hwidth], fun _ _ => rfl, fun k hk => by omega, h⟩

/-- Where the bit-serial loop stands when the machine is in `u`, the registers being those of `c`: an overflow send is outstanding
exactly when the loop has rotated and the machine has not. -/
def serialPoint (c : Block) (u : State) : Block × List (List Byte) :=
  (if u.blk.ph = .sendWait then rotate u.params.cap (u.blk.withSequencerOf c) else u.blk.withSequencerOf c, sends u.log)

theorem serialPoint_waiting (c : Block) {u : State} (h : u.blk.ph = .sendWait) :
    serialPoint c u = (rotate u.params.cap (u.blk.withSequencerOf c), sends u.log) := by rw [serialPoint, if_pos h]

theorem serialPoint_not_waiting (c : Block) {u : State} (h : u.blk.ph ≠ .sendWait) :
    serialPoint c u = (u.blk.withSequencerOf c, sends u.log) := by rw [serialPoint, if_neg h]

/-- `u` is a state on the way of a WRITE accepted in `s`: the rest of the loop, over the `REM` bits left, leads from where `u`
stands to where the whole loop leads from `s`. -/
structure SerialWrite (s u : State) (value : Value) (width : Byte) : Prop where
  params : u.params = s.params
  opk : u.blk.opk = .write
  pending : Pending u.blk value
  serial : packBits s.params (valueBits value u.blk.rem.val) (serialPoint s.blk u) =
    packBits s.params (valueBits value width.toNat) (s.blk, sends s.log)
  done : u.blk.ph = .idle → u.blk.guard = .ready ∧ u.blk.rem.val = 0

theorem serialWrite_accepted (s : State) (value : Value) {width : Byte} (hw : legalWidth width) :
    SerialWrite s (s.after (acceptWriteBlock value width s.blk) [.accept .ok]) value width := by
  have hrem : (acceptWriteBlock value width s.blk).rem.val = width.toNat := remOfWidth_val hw
  refine ⟨rfl, rfl, (appendedSoFar_acceptWriteBlock s.blk value hw).pending, ?_, by simp⟩
  have hpoint : serialPoint s.blk (s.after (acceptWriteBlock value width s.blk) [.accept .ok]) = (s.blk, sends s.log) := by
    rw [serialPoint_not_waiting _ (by simp)]
    exact Prod.ext rfl (by simp)
  rw [State.after_blk, hrem, hpoint]

section
variable {s u : State} {value : Value} {width : Byte}

/-- The overflow send is the loop's (R78). -/
theorem SerialWrite.overflow (h : SerialWrite s u value width) (hl : s.params.legal) (hr : u.blk.ph = .run)
    (h0 : 0 < u.blk.rem.val) (hf : u.blk.active.vbc.toNat = u.params.capBits) :
    SerialWrite s (u.after { u.blk with ph := .sendWait } [.send (image u.params u.blk.active)]) value width := by
  obtain ⟨hp, hk, hpend, hserial, -⟩ := h
  refine ⟨hp, hk, hpend, ?_, by simp⟩
  have hpoint : serialPoint s.blk u = (u.blk.withSequencerOf s.blk, sends u.log) :=
    serialPoint_not_waiting _ (by simp [hr])
  have hflush : serialPoint s.blk (u.after { u.blk with ph := .sendWait } [.send (image u.params u.blk.active)]) =
      flushIfFull s.params (serialPoint s.blk u) := by
    rw [hpoint, flushIfFull_full (by rw [Block.withSequencerOf_active, hf, hp]), Block.withSequencerOf_active]
    rw [serialPoint_waiting _ rfl]
    exact Prod.ext (by rw [← hp]; rfl) (by simp [hp])
  have hne : valueBits value u.blk.rem.val ≠ [] := by
    rw [← List.length_pos_iff, length_valueBits]
    exact h0
  rw [hflush]
  exact (packBits_flushIfFull hl hne _).trans hserial

/-- A store runs the loop over one chunk (R79). -/
theorem SerialWrite.store (h : SerialWrite s u value width) (hinv : PackerInv u) (hr : u.blk.ph = .run)
    (h0 : 0 < u.blk.rem.val) (hf : u.blk.active.vbc.toNat ≠ u.params.capBits) {old : Byte}
    (ho : Memory.read u.params.cap u.blk.active.data (byteIndex u.blk.active.vbc) = some old) :
    SerialWrite s (u.after (storeBlock u.blk old) []) value width := by
  obtain ⟨hl, hblk⟩ := hinv
  obtain ⟨-, hsized, ⟨-, -, hclean⟩, -⟩ := hblk.writing (hblk.writing_of_run hr)
  obtain ⟨hp, hk, hpend, hserial, -⟩ := h
  have hroom := lt_of_le_of_ne hclean.1 hf
  obtain ⟨-, hfit⟩ := advanceVbc_toNat hl (rem := u.blk.rem) hroom
  obtain ⟨-, -, hn⟩ := chunkLen_bounds u.blk.active.vbc h0
  have hrem : (storeBlock u.blk old).rem.val = u.blk.rem.val - chunkLen u.blk.active.vbc u.blk.rem := advanceRem_val _ _
  have hpush := storePacket_eq_pushAll hl hclean (dataSized_iff.mp hsized u.blk.act) hroom (Memory.getElem?_of_read ho)
    u.blk.acc h0
  have hpoint : serialPoint s.blk u = (u.blk.withSequencerOf s.blk, sends u.log) :=
    serialPoint_not_waiting _ (by simp [hr])
  have hchunk : serialPoint s.blk (u.after (storeBlock u.blk old) []) =
      packBits s.params (topBits u.blk.acc (chunkLen u.blk.active.vbc u.blk.rem)) (serialPoint s.blk u) := by
    rw [hpoint, packBits_of_fit _ (hp ▸ (capBits_bounds hl).2) (by simpa [hp] using hfit), Block.withSequencerOf_active,
      ← hpush, serialPoint_not_waiting _ (by simp [hr]), State.after_blk, storeBlock_withSequencerOf]
    exact Prod.ext rfl (by simp)
  refine ⟨hp, (storeBlock_opk _ _).trans hk, (hpend.appendedSoFar.storeBlock hl hclean h0 hroom ho).pending, ?_,
    by simp [hr]⟩
  rw [State.after_blk, hrem, hchunk, ← packBits_append, ← hpend.valueBits_eq hn, hserial]

/-- The return finds the loop already rotated (R106). -/
theorem SerialWrite.sendRet (h : SerialWrite s u value width) (hw : u.blk.ph = .sendWait) :
    SerialWrite s (u.after (sendRetBlock u.params.cap u.blk) []) value width := by
  obtain ⟨hp, hk, hpend, hserial, -⟩ := h
  have hpoint : serialPoint s.blk (u.after (sendRetBlock u.params.cap u.blk) []) = serialPoint s.blk u := by
    rw [serialPoint_waiting _ hw, rotate_withSequencerOf, sendRetBlock_write hk, serialPoint_not_waiting _ (by simp)]
    exact Prod.ext rfl (by simp)
  rw [sendRetBlock_write hk] at hpoint ⊢
  refine ⟨hp, (rotate_opk _ _).trans hk, ?_, ?_, by simp⟩
  · simpa [Pending] using hpend
  · rw [hpoint]
    simpa using hserial

/-- Every step of a WRITE stays on its way. -/
theorem SerialWrite.step {u' : State} (h : SerialWrite s u value width) (hinv : PackerInv u) (hbusy : u.blk.ph ≠ .idle)
    (hnoreset : u.events.head? ≠ some .reset) (hstep : step u = .next u') : SerialWrite s u' value width := by
  cases stepRule_of_step hstep with
  | reset he => exact absurd he hnoreset
  | unchanged outs _ ho =>
    have hnone : sends outs = [] := by rcases ho with rfl | ⟨c, -, rfl⟩ <;> rfl
    obtain ⟨hp, hk, hpend, hserial, hdone⟩ := h
    have hpoint : serialPoint s.blk (u.after u.blk outs) = serialPoint s.blk u :=
      Prod.ext rfl (by simp [serialPoint, hnone])
    exact ⟨hp, hk, hpend, (congrArg _ hpoint).trans hserial, hdone⟩
  | init _ _ _ _ hi | write _ _ _ _ _ hi | flush _ _ _ hi | flushR _ _ _ hi => exact absurd hi hbusy
  | finish _ hr h0 =>
    obtain ⟨hp, hk, hpend, hserial, -⟩ := h
    exact ⟨hp, hk, hpend, by simpa [serialPoint, hr, Block.withSequencerOf] using hserial, fun _ => ⟨rfl, h0⟩⟩
  | overflow _ hr h0 hf => exact h.overflow (h.params ▸ hinv.1) hr h0 hf
  | store old _ hr h0 hf ho => exact h.store hinv hr h0 hf ho
  | sendRet _ _ hw => exact h.sendRet hw

end

/-- At the end of a WRITE the packets and the sends are those of the big step (R81, R82). -/
theorem WriteRunsToCompletion.eq_writeBig {s t : State} {value : Value} {width : Byte}
    (h : WriteRunsToCompletion s t value width) :
    t.blk.guard = .ready ∧
    (t.blk.withSequencerOf s.blk, sends t.log) =
      ((writeBig s.params s.blk value width).1, sends s.log ++ (writeBig s.params s.blk value width).2) := by
  obtain ⟨-, -, -, hserial, hdone⟩ := h.induct (P := fun u => SerialWrite s u value width)
    (serialWrite_accepted s value h.legal) fun _ _ hu hinv hbusy hnoreset hstep => hu.step hinv hbusy hnoreset hstep
  obtain ⟨-, hidle⟩ := h.ends
  obtain ⟨hg, hrem⟩ := hdone hidle
  have hpoint : serialPoint s.blk t = (t.blk.withSequencerOf s.blk, sends t.log) :=
    serialPoint_not_waiting _ (by simp [hidle])
  have hsent := packBits_sent_append s.params (valueBits value width.toNat) s.blk (sends s.log) []
  rw [List.append_nil] at hsent
  rw [hrem, valueBits_zero, packBits_nil, hpoint, hsent] at hserial
  rw [writeBig, appendBits_eq_packBits]
  exact ⟨hg, hserial⟩

/-- Settles O48, field by field from `WriteRunsToCompletion.eq_writeBig`. -/
theorem writeRunsAsTheBitSerialLoop : Obligations.WriteRunsAsTheBitSerialLoop := by
  intro s t value width h
  obtain ⟨hg, hbig⟩ := h.eq_writeBig
  obtain ⟨hblk, hsends⟩ := Prod.mk.inj hbig
  have hsrc : (writeBig s.params s.blk value width).1.srcId = s.blk.srcId := by
    rw [writeBig, appendBits_eq_packBits, packBits_srcId]
  exact ⟨(congrArg Block.p0 hblk :), (congrArg Block.p1 hblk :), (congrArg Block.seq hblk :),
    (congrArg Block.srcId hblk).trans hsrc, hg, hsends⟩

/-- From a packet that holds at most `CAPBITS` bits, a WRITE of at most 32 bits sends at most 4 images, and at most 1 when the
capacity is at least 4 (R83). -/
theorem sends_of_write_le {v w cap : Nat} (hv : v ≤ 8 * cap) (hw : w ≤ 32) (hcap : 1 ≤ cap) :
    (4 ≤ cap → ceilDiv (v + w) (8 * cap) - 1 ≤ 1) ∧ ceilDiv (v + w) (8 * cap) - 1 ≤ 4 := by
  unfold ceilDiv
  constructor
  · intro h4
    have : (v + w + 8 * cap - 1) / (8 * cap) < 3 := (Nat.div_lt_iff_lt_mul (by omega)).mpr (by omega)
    omega
  · have : (v + w + 8 * cap - 1) / (8 * cap) < 6 := (Nat.div_lt_iff_lt_mul (by omega)).mpr (by omega)
    omega

/-- Settles O49: the images of the big step, counted by `packBits_count`. -/
theorem sendsOfOneWrite : Obligations.SendsOfOneWrite := by
  intro s t value width h n
  obtain ⟨⟨hl, hinv⟩, -, hg, ⟨hmin, hmax⟩, -⟩ := id h
  obtain ⟨-, -, hv, -⟩ := hinv.prepared_of_ready hg
  obtain ⟨-, hbig⟩ := h.eq_writeBig
  obtain ⟨hblk, hsends⟩ := Prod.mk.inj hbig
  rw [writeBig, appendBits_eq_packBits] at hblk hsends
  obtain ⟨hcount, hle, hpos⟩ := packBits_count hl (valueBits value width.toNat) (x := (s.blk, [])) hv
  have hseq := packBits_seq s.params (valueBits value width.toNat) (s.blk, [])
  simp only [length_valueBits, List.length_nil, Nat.mul_zero, Nat.add_zero] at hcount hpos hseq
  have hn : (packBits s.params (valueBits value width.toNat) (s.blk, [])).2.length = n :=
    (full_packets_of_count hcount (hpos (by omega)) hle).2
  rw [hn, ← hblk, Nat.mod_eq_of_lt (BitVec.isLt _)] at hseq
  refine ⟨?_, hseq, sends_of_write_le hv hmax hl.1⟩
  rw [hsends, List.length_append, hn]

end Sys2Proof.Machine
end

section
/-! PROOFS. A WRITE can be completed (43_guard_and_sequencer.md R104, 70_reset_and_hazards.md R152): the schedule that ticks the
engine and answers every send at once, and how long it is. -/

namespace Sys2Proof.Machine

/-- From `u`, with `es` in place of its schedule, ticks and returns of status `st` bring the WRITE to its end. -/
structure Completes (st : Byte) (u : State) (es : List Event) : Prop where
  engine : ∀ e ∈ es, e = .tick ∨ e = .sendRet st
  ends : ∃ t, runSteps es.length { u with events := es } = .next t ∧ t.events = [] ∧ t.blk.ph = .idle ∧
    t.blk.guard = .ready

/-- A tick or a return that leads to a state from which the WRITE completes. -/
theorem Completes.cons {st : Byte} {u u' : State} {e : Event} {es : List Event} (he : e = .tick ∨ e = .sendRet st)
    (hstep : step { u with events := e :: es } = .next { u' with events := es }) (h : Completes st u' es) :
    Completes st u (e :: es) := by
  obtain ⟨hengine, t, hrun, hends⟩ := h
  refine ⟨List.forall_mem_cons.mpr ⟨he, hengine⟩, t, ?_, hends⟩
  rw [List.length_cons, runSteps, hstep]
  exact hrun

section
variable {st : Byte} {u : State} {es : List Event} (hl : u.params.legal) (hr : u.blk.ph = .run)
include hl hr

/-- With no bit left one tick completes the WRITE (R80). -/
theorem completes_finish (h0 : u.blk.rem.val = 0) : Completes st u [.tick] := by
  have hfinish := step_tick_finish (s := { u with events := [.tick] }) hl rfl hr h0
  refine ⟨by simp, State.after { u with events := [.tick] } { u.blk with guard := .ready, ph := .idle } [], ?_, rfl, rfl, rfl⟩
  rw [List.length_singleton, runSteps, hfinish]
  rfl

/-- A tick for a store (R79). -/
theorem Completes.store (h0 : 0 < u.blk.rem.val) (hf : u.blk.active.vbc.toNat ≠ u.params.capBits) {old : Byte}
    (ho : Memory.read u.params.cap u.blk.active.data (byteIndex u.blk.active.vbc) = some old)
    (h : Completes st (u.after (storeBlock u.blk old) []) es) : Completes st u (.tick :: es) :=
  h.cons (.inl rfl) (step_tick_store (s := { u with events := .tick :: es }) hl rfl hr h0 hf ho)

/-- A tick for an overflow send and the return that answers it (R78, R106). -/
theorem Completes.overflow (hk : u.blk.opk = .write) (h0 : 0 < u.blk.rem.val)
    (hf : u.blk.active.vbc.toNat = u.params.capBits)
    (h : Completes st (u.after (resumeBlock u.params.cap u.blk) [.send (image u.params u.blk.active)]) es) :
    Completes st u (.tick :: .sendRet st :: es) := by
  have hsend := step_tick_overflow (s := { u with events := .tick :: .sendRet st :: es }) hl rfl hr h0 hf
  refine Completes.cons (u' := u.after { u.blk with ph := .sendWait } [.send (image u.params u.blk.active)]) (.inl rfl)
    hsend (h.cons (.inr rfl) ?_)
  have hback := step_sendRet_waiting hl (s := State.after { u with events := .tick :: .sendRet st :: es }
    { u.blk with ph := .sendWait } [.send (image u.params u.blk.active)]) rfl rfl
  rw [State.after_blk, State.after_params, sendRetBlock_overflow hk] at hback
  simpa [State.after] using hback

end

/-- The sends the bits still to be written will need (R83). -/
def sendsLeft (ps : Params) (b : Block) : Nat := ceilDiv (b.active.vbc.toNat + b.rem.val) ps.capBits - 1

/-- A store moves bits from `REM` to the packet's count (R79). -/
theorem sendsLeft_storeBlock {ps : Params} {b : Block} (hl : ps.legal) (h0 : 0 < b.rem.val)
    (hroom : b.active.vbc.toNat < ps.capBits) (old : Byte) : sendsLeft ps (storeBlock b old) = sendsLeft ps b := by
  obtain ⟨hvbc, -⟩ := advanceVbc_toNat hl (rem := b.rem) hroom
  obtain ⟨-, -, hn⟩ := chunkLen_bounds b.active.vbc h0
  have hrem : (storeBlock b old).rem.val = b.rem.val - chunkLen b.active.vbc b.rem := advanceRem_val _ _
  have hcount : (storeBlock b old).active.vbc.toNat = b.active.vbc.toNat + chunkLen b.active.vbc b.rem := by
    rw [storeBlock_active]; exact hvbc
  have htotal : (storeBlock b old).active.vbc.toNat + (storeBlock b old).rem.val = b.active.vbc.toNat + b.rem.val := by omega
  rw [sendsLeft, sendsLeft, htotal]

/-- An answered overflow send is one of those needed (R78, R83). -/
theorem sendsLeft_resumeBlock {ps : Params} {b : Block} (hl : ps.legal) (h0 : 0 < b.rem.val)
    (hf : b.active.vbc.toNat = ps.capBits) :
    sendsLeft ps (resumeBlock ps.cap b) + 1 = sendsLeft ps b := by
  obtain ⟨hcap, -⟩ := capBits_bounds hl
  have hone : 1 ≤ ceilDiv b.rem.val ps.capBits := (Nat.one_le_div_iff (by omega)).mpr (by omega)
  have hmore : ceilDiv (ps.capBits + b.rem.val) ps.capBits = ceilDiv b.rem.val ps.capBits + 1 := by
    rw [ceilDiv, Nat.add_assoc, Nat.add_sub_assoc (by omega), Nat.add_div_left _ (by omega), ceilDiv]
  rw [sendsLeft, sendsLeft, resumeBlock_active, hf, hmore]
  simp only [resumeBlock_rem, BitVec.toNat_zero, Nat.zero_add]
  omega

/-- The empty packet needs no more engine steps than the full one (R152). -/
theorem stepsToLeaveRun_resumeBlock_le (cap : Nat) {b : Block} (hr : b.ph = .run) (h0 : 0 < b.rem.val) :
    stepsToLeaveRun (resumeBlock cap b) ≤ stepsToLeaveRun b := by
  rw [stepsToLeaveRun_running hr h0, stepsToLeaveRun_running rfl (by simpa using h0), resumeBlock_active]
  simp only [resumeBlock_rem, bitOffset, ceilDiv, BitVec.toNat_zero]
  omega

/-- With every send answered at once, the WRITE needs one return for each send left, and twice that in events beside the engine
steps of R152. -/
theorem exists_completes (st : Byte) {u : State} (hinv : PackerInv u) (hr : u.blk.ph = .run) :
    ∃ es, Completes st u es ∧ es.count (.sendRet st) ≤ sendsLeft u.params u.blk ∧
      es.length ≤ stepsToLeaveRun u.blk + 2 * sendsLeft u.params u.blk := by
  induction hn : stepsToLeaveRun u.blk + 2 * sendsLeft u.params u.blk using Nat.strong_induction_on generalizing u with
  | _ n ih =>
    obtain ⟨hl, hblk⟩ := id hinv
    have hwriting := hblk.writing_of_run hr
    obtain ⟨-, hsized, ⟨-, -, hclean⟩, -⟩ := hblk.writing hwriting
    rcases Nat.eq_zero_or_pos u.blk.rem.val with h0 | h0
    case inl =>
      have hpos : stepsToLeaveRun u.blk ≠ 0 := fun hz => stepsToLeaveRun_eq_zero.mp hz hr
      exact ⟨[.tick], completes_finish hl hr h0, by simp, by rw [List.length_singleton]; omega⟩
    case inr =>
      by_cases hf : u.blk.active.vbc.toNat = u.params.capBits
      · have hfewer := sendsLeft_resumeBlock hl h0 hf
        have hsteps := stepsToLeaveRun_resumeBlock_le u.params.cap hr h0
        have hnext := (hblk.overflow hr h0 hf).sendRetBlock rfl
        rw [sendRetBlock_overflow hwriting.2] at hnext
        obtain ⟨es, hes, hcount, hlen⟩ := ih _ (by simp only [State.after_blk, State.after_params]; omega)
          (u := u.after (resumeBlock u.params.cap u.blk) [.send (image u.params u.blk.active)])
          ⟨hl, hnext⟩ rfl rfl
        rw [State.after_blk, State.after_params] at hcount hlen
        refine ⟨_, hes.overflow hl hr hwriting.2 h0 hf, ?_, ?_⟩
        · rw [List.count_cons_of_ne (by simp), List.count_cons_self]
          omega
        · rw [List.length_cons, List.length_cons]
          omega
      · have hroom := lt_of_le_of_ne hclean.1 hf
        obtain ⟨old, hread⟩ : ∃ old, Memory.read u.params.cap u.blk.active.data (byteIndex u.blk.active.vbc) = some old :=
          ⟨_, Memory.read_isSome (dataSized_iff.mp hsized u.blk.act) (byteIndex_lt hroom)⟩
        have hsame := sendsLeft_storeBlock hl h0 hroom old
        have hsteps := stepsToLeaveRun_storeBlock hl hr h0 hroom old
        obtain ⟨es, hes, hcount, hlen⟩ := ih _ (by simp only [State.after_blk, State.after_params]; omega)
          (u := u.after (storeBlock u.blk old) [])
          ⟨hl, hblk.storeBlock hl hr h0 hf hread⟩ (by simp [hr]) rfl
        rw [State.after_blk, State.after_params] at hcount hlen
        refine ⟨_, hes.store hl hr h0 hf hread, ?_, ?_⟩
        · rw [List.count_cons_of_ne (by simp)]
          omega
        · rw [List.length_cons]
          omega

/-- Settles O47: after the acceptance at most 4 sends are left, and the engine needs one step more than the bytes the value
touches. -/
theorem writeCompletesWithinTheBounds : Obligations.WriteCompletesWithinTheBounds := by
  intro s value width st hinv hi hg hw
  obtain ⟨hl, hblk⟩ := hinv
  obtain ⟨-, -, hv, -⟩ := hblk.prepared_of_ready hg
  have haccept (es : List Event) := step_write_accepted (s := { s with events := .cmd (encode (.write value width)) :: es })
    hl rfl hi hg hw
  obtain ⟨es, ⟨hengine, t, hrun, hends⟩, hcount, hlen⟩ := exists_completes st
    (u := s.after (acceptWriteBlock value width s.blk) [.accept .ok]) ⟨hl, hblk.acceptWriteBlock hg value hw⟩ rfl
  have hactive : (acceptWriteBlock value width s.blk).active = s.blk.active := Block.active_congr rfl rfl rfl
  have hrem : (acceptWriteBlock value width s.blk).rem.val = width.toNat := remOfWidth_val hw
  have hsends : sendsLeft s.params (acceptWriteBlock value width s.blk) ≤ 4 := by
    rw [sendsLeft, hactive, hrem]
    exact (sends_of_write_le hv hw.2 hl.1).2
  have hsteps : stepsToLeaveRun (acceptWriteBlock value width s.blk) ≤ ceilDiv width.toNat 8 + 2 := by
    have hoff := bitOffset_lt s.blk.active.vbc
    rw [stepsToLeaveRun_running rfl (by have := hw.1; omega), hactive, hrem, ceilDiv, ceilDiv]
    omega
  rw [State.after_blk, State.after_params] at hcount hlen
  refine ⟨es, t, hengine, hcount.trans hsends, by omega, ?_, hends⟩
  rw [runSteps, haccept es]
  exact hrun

end Sys2Proof.Machine
end

section
/-! PROOFS. FLUSH and FLUSH.R (42_flush.md R90 to R95): one argument for both from acceptance to the collaborator's return,
and what each leaves. -/

namespace Sys2Proof.Machine

/-! ### The two commands at the command port -/

/-- `i` is one of the two flush commands, and `k` is what it puts in `OPK` (R21). -/
inductive FlushCommand : Instr → Opk → Prop where
  | flush : FlushCommand .flush .flush
  | flushR : FlushCommand .flushR .flushR

theorem flushCommand_of_eq {i : Instr} (h : i = .flush ∨ i = .flushR) : ∃ k, FlushCommand i k := by
  rcases h with rfl | rfl
  · exact ⟨_, .flush⟩
  · exact ⟨_, .flushR⟩

theorem acceptOk_startFlush (k : Opk) (s : State) : acceptOk (startFlush k s) =
    .next { s with blk := { s.blk with opk := k, ph := .sendWait },
                   log := s.log ++ [.send (image s.params s.blk.active), .accept .ok] } := by
  simp [acceptOk, startFlush, emitSend, State.put]

/-- At `PH = IDLE` a flush command is accepted, whatever `GUARD` holds: one image is sent and its return awaited (R93). -/
theorem FlushCommand.exec_idle {i : Instr} {k : Opk} (h : FlushCommand i k) {s : State} (hi : s.blk.ph = .idle) :
    exec i s = .next { s with blk := { s.blk with opk := k, ph := .sendWait },
                              log := s.log ++ [.send (image s.params s.blk.active), .accept .ok] } := by
  cases h with
  | flush => exact (whenIdle_idle hi _).trans (acceptOk_startFlush .flush s)
  | flushR => exact (whenIdle_idle hi _).trans (acceptOk_startFlush .flushR s)

/-- While busy every command is dropped (R99). -/
theorem exec_busy {s : State} (hb : s.blk.ph ≠ .idle) (i : Instr) : exec i s = .next (s.put (.accept .dropped)) := by
  cases i with
  | init sid => exact whenIdle_busy hb _
  | write value width => exact whenIdle_busy hb _
  | flush => exact whenIdle_busy hb _
  | flushR => exact whenIdle_busy hb _

/-- Settles O17: the active packet is the one of the counter's parity. -/
theorem flushSendsTheActivePacket : Obligations.FlushSendsTheActivePacket := by
  intro s hi p
  have hp : s.blk.active = p := Block.active_eq_ite s.blk
  exact hp ▸ FlushCommand.flush.exec_idle hi

/-- Settles O18: the active packet is the one of the counter's parity. -/
theorem flushRSendsTheActivePacket : Obligations.FlushRSendsTheActivePacket := by
  intro s hi p
  have hp : s.blk.active = p := Block.active_eq_ite s.blk
  exact hp ▸ FlushCommand.flushR.exec_idle hi

/-! ### An empty packet -/

/-- A clean packet with no valid bit has all-zero data (R24). -/
theorem Packet.Clean.eq_prepared {ps : Params} {p : Packet} (hc : p.Clean ps) (hlen : p.data.length = ps.cap)
    (hv : p.vbc = 0#8) : p = { vbc := 0#8, seq := p.seq, sid := p.sid, data := Memory.zeroed ps.cap } := by
  refine Packet.ext_of_bits hv rfl rfl (hlen.trans (Memory.length_zeroed _).symm) fun pos => ?_
  rw [Packet.bit_zeroed]
  by_cases hpos : pos < ps.capBits
  · exact hc.2 pos hpos (by simp [hv])
  · have hout : p.data.length ≤ pos / 8 := by unfold Params.capBits at hpos; omega
    simp [Packet.bit, hout]

/-- The active packet of an initialised packer that has nothing to send. -/
theorem BlockInv.active_of_empty {ps : Params} {b : Block} (h : BlockInv ps b) (hg : b.guard = .ready)
    (hv : b.active.vbc = 0#8) :
    b.active = { vbc := 0#8, seq := b.seq, sid := b.srcId, data := Memory.zeroed ps.cap } := by
  obtain ⟨hseq, hsid, hclean⟩ := h.prepared_of_ready hg
  rw [← hseq, ← hsid]
  exact hclean.eq_prepared (dataSized_iff.mp h.dataSized b.act) hv

/-- Settles O21: the image sent is the active packet's, and an empty one is as preparation left it. -/
theorem emptyPacketIsSentInFull : Obligations.EmptyPacketIsSentInFull := by
  intro s i hflush hi
  obtain ⟨k, hk⟩ := flushCommand_of_eq hflush
  refine ⟨⟨_, _, hk.exec_idle hi, sends_append _ _, image_vbc _ _⟩, fun ⟨_, hinv⟩ hg hv => ⟨_, hk.exec_idle hi, ?_⟩⟩
  rw [hinv.active_of_empty hg hv]
  exact sends_append _ _

/-! ### The two steps of a flush command -/

/-- The state once a flush command has been accepted: its image sent, the return awaited. -/
def State.flushSent (s : State) (k : Opk) : State :=
  s.after { s.blk with opk := k, ph := .sendWait } [.send (image s.params s.blk.active), .accept .ok]

/-- The state once the collaborator has answered it. -/
def State.flushAnswered (s : State) (k : Opk) : State :=
  (s.flushSent k).after (sendRetBlock s.params.cap (s.flushSent k).blk) []

@[simp] theorem State.flushAnswered_params (s : State) (k : Opk) : (s.flushAnswered k).params = s.params := rfl
@[simp] theorem State.flushAnswered_events (s : State) (k : Opk) : (s.flushAnswered k).events = s.events.tail.tail := rfl
theorem State.flushAnswered_log (s : State) (k : Opk) : (s.flushAnswered k).log = (s.flushSent k).log :=
  List.append_nil _

theorem State.sends_flushAnswered (s : State) (k : Opk) :
    sends (s.flushAnswered k).log = sends s.log ++ [image s.params s.blk.active] := by
  rw [flushAnswered_log]
  exact sends_append _ _

section
variable {s : State}

theorem State.flushAnswered_ph {i : Instr} {k : Opk} (h : FlushCommand i k) : (s.flushAnswered k).blk.ph = .idle := by
  cases h <;> rfl

/-- After an answered FLUSH only `OPK` differs (R90). -/
theorem State.flushAnswered_flush (hi : s.blk.ph = .idle) :
    (s.flushAnswered .flush).blk = { s.blk with opk := .flush } := by
  calc (s.flushAnswered .flush).blk = { s.blk with opk := .flush, ph := .idle } :=
      sendRetBlock_flush (b := (s.flushSent .flush).blk) rfl s.params.cap
    _ = { s.blk with opk := .flush } := by rw [← hi]

/-- An answered FLUSH.R is a rotation, with its mark in `OPK` (R91). -/
theorem State.flushAnswered_flushR (hi : s.blk.ph = .idle) :
    (s.flushAnswered .flushR).blk = { rotate s.params.cap s.blk with opk := .flushR } := by
  have hret : (s.flushAnswered .flushR).blk =
      { rotate s.params.cap { s.blk with opk := .flushR, ph := .sendWait } with ph := .idle } :=
    sendRetBlock_flushR (b := (s.flushSent .flushR).blk) rfl _
  have hidle : (rotate s.params.cap s.blk).ph = .idle := (rotate_ph _ _).trans hi
  rw [hret, rotate_sequencer, ← hidle]

/-- The packet an answered FLUSH.R makes active is empty, with the new counter and the stored identifier (R91). -/
theorem State.flushAnswered_flushR_active (hi : s.blk.ph = .idle) : (s.flushAnswered .flushR).blk.active =
    { vbc := 0#8, seq := s.blk.seq + 1#8, sid := s.blk.srcId, data := Memory.zeroed s.params.cap } := by
  rw [flushAnswered_flushR hi, ← rotate_active]
  exact Block.active_congr rfl rfl rfl

/-- The packet an answered FLUSH.R sent keeps its contents (R91). -/
theorem State.flushAnswered_flushR_pkt_act (hi : s.blk.ph = .idle) :
    (s.flushAnswered .flushR).blk.pkt s.blk.act = s.blk.active := by
  rw [flushAnswered_flushR hi]
  exact (pkt_eq_of_fields rfl rfl _).trans (rotate_pkt_act _ _)

/-- A step that takes a word which decodes to `i` is `exec i` (R98). -/
theorem step_cmd {w : CmdWord} {i : Instr} {es : List Event} (hl : s.params.legal) (he : s.events = .cmd w :: es)
    (hd : decode w = .instr i) : step s = exec i { s with events := es } := by
  rw [step_event hl he, takeEvent, takeCmd, hd]

theorem step_cmd_busy {w : CmdWord} {i : Instr} {es : List Event} (hl : s.params.legal) (he : s.events = .cmd w :: es)
    (hd : decode w = .instr i) (hb : s.blk.ph ≠ .idle) :
    step s = .next { s with events := es, log := s.log ++ [.accept .dropped] } :=
  (step_cmd hl he hd).trans (exec_busy (s := { s with events := es }) hb i)

theorem runSteps_of_step {t : State} (h : step s = .next t) (n : Nat) : runSteps (n + 1) s = runSteps n t := by
  rw [runSteps, h]

/-- The collaborator's return ends a flush command (R106). -/
theorem step_flushSent {e : Event} {st : Byte} {es : List Event} (hl : s.params.legal)
    (he : s.events = e :: .sendRet st :: es) (k : Opk) : step (s.flushSent k) = .next (s.flushAnswered k) := by
  have hnext : (s.flushSent k).events = .sendRet st :: es := by simp [State.flushSent, he]
  exact step_sendRet_waiting hl hnext rfl

variable {i : Instr} {k : Opk} {w : CmdWord} {st : Byte} {es : List Event} (hk : FlushCommand i k) (hl : s.params.legal)
  (hi : s.blk.ph = .idle) (hd : decode w = .instr i)
include hk hl hi hd

theorem FlushCommand.step_sent (he : s.events = .cmd w :: es) : step s = .next (s.flushSent k) := by
  rw [step_cmd hl he hd, hk.exec_idle (s := { s with events := es }) hi]
  simp [State.flushSent, State.after, he]

/-- A flush command and its return are two steps (R105, R106). -/
theorem FlushCommand.runSteps_answered (he : s.events = .cmd w :: .sendRet st :: es) (n : Nat) :
    runSteps (n + 2) s = runSteps n (s.flushAnswered k) := by
  rw [runSteps_of_step (hk.step_sent hl hi hd he), runSteps_of_step (step_flushSent hl he k)]

end

/-! ### The whole commands -/

/-- Settles O19: the two steps and `State.flushAnswered_flush`, and the drop of `step_cmd_busy`. -/
theorem flushLeavesEveryPacketAsItWas : Obligations.FlushLeavesEveryPacketAsItWas := by
  refine ⟨fun s w st es hl hop he hi => ?_, fun s w es hl hop he hb => ?dropped⟩
  case dropped => exact step_cmd_busy hl he (decode_eq_flush_iff.mpr hop) hb
  have hback := step_flushSent hl he .flush
  refine ⟨_, FlushCommand.flush.step_sent hl hi (decode_eq_flush_iff.mpr hop) he, rfl, rfl, rfl, hback.trans ?_⟩
  rw [← State.flushAnswered_log, ← State.flushAnswered_flush hi]
  simp [State.flushAnswered, State.flushSent, State.after, he]

/-- Settles O20: the two steps, then the block of `State.flushAnswered_flushR` field by field; the drop is `step_cmd_busy`. -/
theorem flushRSendsThenRotates : Obligations.FlushRSendsThenRotates := by
  refine ⟨fun s w st es hl hop he hi => ?_, fun s w es hl hop he hb => ?dropped⟩
  case dropped => exact step_cmd_busy hl he (decode_eq_flushR_iff.mpr hop) hb
  refine ⟨_, _, FlushCommand.flushR.step_sent hl hi (decode_eq_flushR_iff.mpr hop) he, rfl, rfl,
    step_flushSent hl he .flushR, ?_⟩
  rw [State.flushAnswered_flushR_active hi, State.flushAnswered_flushR_pkt_act hi, State.flushAnswered_flushR hi]
  have hact : Block.act { rotate s.params.cap s.blk with opk := .flushR } = s.blk.act.other := rotate_act _ _
  exact ⟨(rotate_ph _ _).trans hi, rotate_guard _ _, rotate_srcId _ _, rotate_seq_toNat _ _, hact, rfl,
    (rotate_seq_val _ _).symm, rfl, Memory.length_zeroed _, fun _ => Memory.read_zeroed, rfl, rotate_acc _ _,
    rotate_rem _ _, rfl, by simp [he], rfl, State.flushAnswered_log _ _⟩

/-- Settles O22: the first FLUSH leaves everything the second one sends from. -/
theorem plainFlushSendsTheSameImageAgain : Obligations.PlainFlushSendsTheSameImageAgain := by
  intro s st st' hl hi he
  have hd := decodeOfEncodeIsTheCommand .flush
  have hi' : (s.flushAnswered .flush).blk.ph = .idle := State.flushAnswered_ph .flush
  have he' : (s.flushAnswered .flush).events = [.cmd (encode .flush), .sendRet st'] := by simp [he]
  have hsame : (s.flushAnswered .flush).blk.active = s.blk.active := by
    rw [State.flushAnswered_flush hi]
    exact Block.active_congr rfl rfl rfl
  refine ⟨(s.flushAnswered .flush).flushAnswered .flush, ?run, ?sent, ?_⟩
  case run =>
    rw [FlushCommand.flush.runSteps_answered hl hi hd he 2]
    exact FlushCommand.flush.runSteps_answered (s := s.flushAnswered .flush) hl hi' hd he' 0
  case sent => simp [State.sends_flushAnswered, hsame]
  rw [State.flushAnswered_flush hi', State.flushAnswered_flush hi]
  exact ⟨rfl, rfl, Block.active_congr rfl rfl rfl⟩

/-- Settles O23: the rotation does not write `GUARD`, and a WRITE at `GUARD = FLUSHING` is dropped. -/
theorem flushRBeforeInitDoesNotMakeReady : Obligations.FlushRBeforeInitDoesNotMakeReady := by
  intro s st value width hl hi hg he
  have hanswered := FlushCommand.flushR.runSteps_answered hl hi (decodeOfEncodeIsTheCommand .flushR) he
  have hguard : (s.flushAnswered .flushR).blk.guard = .flushing := by
    rw [State.flushAnswered_flushR hi]
    exact (rotate_guard _ _).trans hg
  have hevents : (s.flushAnswered .flushR).events = [.cmd (encode (.write value width))] := by simp [he]
  have hwrite : step (s.flushAnswered .flushR) =
      .next { s.flushAnswered .flushR with events := [], log := (s.flushAnswered .flushR).log ++ [.accept .dropped] } := by
    rw [step_cmd (s := s.flushAnswered .flushR) hl hevents (decode_encode_write value width)]
    exact droppedWriteWritesNothing value width _ (.inr (Guard.ne_ready.mpr hguard))
  have hactive := State.flushAnswered_flushR_active hi
  refine ⟨_, _, hanswered 0, hguard, State.flushAnswered_ph .flushR, congrArg Packet.vbc hactive, ?empty,
    congrArg Packet.seq hactive, congrArg Packet.sid hactive, (hanswered 1).trans (runSteps_of_step hwrite 0), rfl, rfl⟩
  case empty => exact hactive ▸ fun _ => Memory.read_zeroed

/-! ### Counting the sends -/

/-- How far a send of each kind moves the counter once it is answered: FLUSH alone does not rotate (R95). -/
def rotationsOf : Opk → Nat
  | .write => 1
  | .flush => 0
  | .flushR => 1

theorem FlushCommand.flushAnswered_seq_toNat {i : Instr} {k : Opk} (hk : FlushCommand i k) {s : State}
    (hi : s.blk.ph = .idle) : (s.flushAnswered k).blk.seq.toNat = (s.blk.seq.toNat + rotationsOf k) % 256 := by
  cases hk with
  | flush =>
    rw [State.flushAnswered_flush hi]
    exact (Nat.mod_eq_of_lt s.blk.seq.isLt).symm
  | flushR =>
    rw [State.flushAnswered_flushR hi]
    exact rotate_seq_toNat _ _

/-- `n` answered flush commands send `n` images and advance the counter `n` times as far as one does. -/
theorem FlushCommand.runSteps_repeated {i : Instr} {k : Opk} (hk : FlushCommand i k) (n : Nat) {s : State}
    (hl : s.params.legal) (hi : s.blk.ph = .idle)
    (he : s.events = (List.replicate n [Event.cmd (encode i), Event.sendRet 0#8]).flatten) :
    ∃ t, runSteps (2 * n) s = .next t ∧ t.blk.ph = .idle ∧
      t.blk.seq.toNat = (s.blk.seq.toNat + n * rotationsOf k) % 256 ∧
      (sends t.log).length = (sends s.log).length + n := by
  induction n generalizing s with
  | zero => exact ⟨s, rfl, hi, by simp [Nat.mod_eq_of_lt s.blk.seq.isLt], rfl⟩
  | succ n ih =>
    obtain ⟨t, hrun, hidle, hseq, hsends⟩ := ih (s := s.flushAnswered k) hl (State.flushAnswered_ph hk)
      (by simp [he, List.replicate_succ])
    refine ⟨t, ?run, hidle, ?seq, ?sends⟩
    case run => exact (hk.runSteps_answered hl hi (decodeOfEncodeIsTheCommand i) he (2 * n)).trans hrun
    case seq =>
      rw [hseq, hk.flushAnswered_seq_toNat hi, Nat.add_mul, Nat.one_mul]
      omega
    case sends =>
      rw [hsends, State.sends_flushAnswered, List.length_append, List.length_singleton]
      omega

/-- Settles O31: FLUSH.R rotates once, FLUSH never. -/
theorem sequenceCounterCountsRotatingSends : Obligations.SequenceCounterCountsRotatingSends := by
  refine ⟨fun n s hl hi he => ?flushR, fun n s hl hi he => ?flush⟩
  case flushR =>
    obtain ⟨t, hrun, hidle, hseq, hsends⟩ := FlushCommand.flushR.runSteps_repeated n hl hi he
    exact ⟨t, hrun, hidle, by simpa [rotationsOf] using hseq, hsends⟩
  case flush =>
    obtain ⟨t, hrun, hidle, hseq, hsends⟩ := FlushCommand.flush.runSteps_repeated n hl hi he
    refine ⟨t, hrun, hidle, BitVec.eq_of_toNat_eq (hseq.trans ?_), hsends⟩
    exact Nat.mod_eq_of_lt s.blk.seq.isLt

end Sys2Proof.Machine
end

section
/-! PROOFS. What one event does (43_guard_and_sequencer.md R98 to R107): the order of a command's checks, the table of the
sequencer's transitions, where sends come from, and how soon the engine leaves `PH = RUN`. -/

namespace Sys2Proof.Machine

/-! ### The answer to a command word (R98) -/

/-- The checks of R98 on a command that finds `PH = IDLE`, in their order: only a WRITE has any. -/
def idleAnswer (b : Block) : Instr → AcceptCode
  | .write _ width => if b.guard ≠ .ready then .dropped else if ¬ legalWidth width then .invalidWidth else .ok
  | .init _ | .flush | .flushR => .ok

/-- The checks of R98 on a command, the busy check first. -/
def commandAnswer (b : Block) (i : Instr) : AcceptCode := if b.ph ≠ .idle then .dropped else idleAnswer b i

/-- `r` answers the command port of `s` with one accept code, the last output of the step; a code other than `OK` is all it
puts out, and leaves the block as it is. -/
def AnswersWith (code : AcceptCode) (s : State) (r : Result) : Prop :=
  ∃ t outs, r = .next t ∧ t.events = s.events ∧ t.log = s.log ++ outs ++ [.accept code] ∧ accepts outs = [] ∧
    (code ≠ .ok → t.blk = s.blk ∧ outs = [])

theorem answersWith_reject (code : AcceptCode) (s : State) : AnswersWith code s (reject code s) :=
  ⟨_, [], rfl, rfl, by simp, rfl, fun _ => ⟨rfl, rfl⟩⟩

/-- An acceptance may have put out anything but an accept code before its own. -/
theorem answersWith_acceptOk {s s' : State} {outs : List Output} (he : s'.events = s.events)
    (hlog : s'.log = s.log ++ outs) (houts : accepts outs = []) : AnswersWith .ok s (acceptOk s') :=
  ⟨_, outs, rfl, he, by simp [hlog], houts, fun h => absurd rfl h⟩

/-- Every command is answered by the first of the checks that applies (R98, R101). -/
theorem exec_answersWith (i : Instr) (s : State) : AnswersWith (commandAnswer s.blk i) s (exec i s) := by
  by_cases hi : s.blk.ph = .idle
  case neg =>
    rw [commandAnswer, if_pos hi, exec_busy hi]
    exact answersWith_reject .dropped s
  rw [commandAnswer, if_neg (not_not.mpr hi)]
  cases i with
  | init sid =>
    rw [exec_init_idle hi]
    exact answersWith_acceptOk (outs := []) rfl (by simp) rfl
  | write value width =>
    rw [exec, execWrite, whenIdle_idle hi, idleAnswer]
    split_ifs with hg hw
    · exact answersWith_reject .dropped s
    · exact answersWith_acceptOk (outs := []) rfl (by simp) rfl
    · exact answersWith_reject .invalidWidth s
  | flush =>
    rw [exec, execFlush, whenIdle_idle hi]
    exact answersWith_acceptOk rfl (startFlush_log .flush s) rfl
  | flushR =>
    rw [exec, execFlushR, whenIdle_idle hi]
    exact answersWith_acceptOk rfl (startFlush_log .flushR s) rfl

/-- A word that decodes to a command carries its operation code (R52). -/
theorem opField_of_decode {w : CmdWord} {i : Instr} (h : decode w = .instr i) : opField w = i.op := by
  cases i with
  | init sid => exact (decode_eq_init_iff.mp h).1
  | write value width => exact (decode_eq_write_iff.mp h).1
  | flush => exact decode_eq_flush_iff.mp h
  | flushR => exact decode_eq_flushR_iff.mp h

/-- The decoder rejects reserved operation codes only (R55). -/
theorem reserved_of_decode {w : CmdWord} {op : Byte} (h : decode w = .illegalOp op) :
    (opField w).toNat = 0 ∨ 5 ≤ (opField w).toNat := by
  unfold decode at h
  split_ifs at h with h1 h2 h3 h4
  bv_omega

/-- The checks of R98 read off the word's fields, once its `op` is legal. -/
theorem commandAnswer_of_decode {w : CmdWord} {i : Instr} (h : decode w = .instr i) (b : Block) :
    commandAnswer b i =
      if b.ph ≠ .idle then .dropped
      else if (opField w).toNat = 2 ∧ b.guard ≠ .ready then .dropped
      else if (opField w).toNat = 2 ∧ ((widthField w).toNat = 0 ∨ 33 ≤ (widthField w).toNat) then .invalidWidth
      else .ok := by
  have hop := opField_of_decode h
  cases i with
  | write value width =>
    obtain ⟨-, rfl, -⟩ := decode_eq_write_iff.mp h
    have hwidth : ¬ legalWidth (widthField w) ↔ (widthField w).toNat = 0 ∨ 33 ≤ (widthField w).toNat := by
      unfold legalWidth; omega
    simp [commandAnswer, idleAnswer, hop, Instr.op, hwidth]
  | init | flush | flushR => simp [commandAnswer, idleAnswer, hop, Instr.op]

/-- Settles O10: check 1 is the decoder's, the others are those of `exec_answersWith`. -/
theorem acceptCodeFollowsTheCheckOrder : Obligations.AcceptCodeFollowsTheCheckOrder := by
  intro s w es hl he op width code
  have hstep : step s = takeCmd w { s with events := es } := step_event hl he
  suffices h : AnswersWith code { s with events := es } (step s) from h
  cases hd : decode w with
  | illegalOp o =>
    have hcode : code = .illegalOp := if_pos (reserved_of_decode hd)
    rw [hstep, takeCmd, hd, hcode]
    exact answersWith_reject .illegalOp _
  | instr i =>
    have hlegal : ¬ (op = 0 ∨ 5 ≤ op) := fun hop => by simp [decode_of_reserved hop] at hd
    have hcode : code = commandAnswer s.blk i := (if_neg hlegal).trans (commandAnswer_of_decode hd s.blk).symm
    rw [hstep, takeCmd, hd, hcode]
    exact exec_answersWith i { s with events := es }

/-! ### The table of transitions (R103) -/

/-- A store has room: the byte it reads lies in the array (R31). -/
theorem vbc_lt_of_read {ps : Params} {p : Packet} {old : Byte}
    (h : Memory.read ps.cap p.data (byteIndex p.vbc) = some old) : p.vbc.toNat < ps.capBits := by
  by_contra hfull
  have hout : ps.cap ≤ byteIndex p.vbc := by
    unfold Params.capBits at hfull
    unfold byteIndex
    omega
  simp [Memory.read_out _ _ hout] at h

/-- A store brings `REM` down (R79). -/
theorem storeBlock_rem_lt {b : Block} (h0 : 0 < b.rem.val) (old : Byte) : (storeBlock b old).rem.val < b.rem.val := by
  have hrem : (storeBlock b old).rem.val = b.rem.val - chunkLen b.active.vbc b.rem := advanceRem_val _ _
  obtain ⟨hn, -, -⟩ := chunkLen_bounds b.active.vbc h0
  omega

/-- Settles O38: each rule is a row of the table, the return of the collaborator one for each command in progress. -/
theorem phaseTransitionsAreTheTable : Obligations.PhaseTransitionsAreTheTable := by
  intro s t hstep ticks
  cases stepRule_of_step hstep with
  | reset he => exact .inl ⟨he, rfl, rfl, rfl⟩
  | init w sid he hd hi =>
    right
    exact .inl ⟨w, sid, he, hd, hi, rfl, hi⟩
  | write w v n he hd hi hg hn =>
    iterate 2 right
    exact .inl ⟨w, v, n, he, hd, hi, hg, hn, rfl, rfl, rfl, rfl⟩
  | flush w he hd hi =>
    iterate 3 right
    exact .inl ⟨w, he, hd, hi, rfl, sends_append _ _⟩
  | flushR w he hd hi =>
    iterate 4 right
    exact .inl ⟨w, he, hd, hi, rfl, sends_append _ _⟩
  | store old ht hr h0 _ ho =>
    iterate 5 right
    exact .inl ⟨ht, hr, h0, vbc_lt_of_read ho, (storeBlock_ph _ _).trans hr, storeBlock_rem_lt h0 old, List.append_nil _⟩
  | overflow ht hr h0 hf =>
    iterate 6 right
    exact .inl ⟨ht, hr, h0, hf, rfl, sends_append _ _⟩
  | finish ht hr h0 =>
    iterate 7 right
    exact .inl ⟨ht, hr, h0, rfl⟩
  | sendRet st he hw =>
    iterate 8 right
    cases hk : s.blk.opk with
    | write => exact .inl ⟨st, he, hw, rfl, sendRetBlock_write hk _⟩
    | flush => exact .inr (.inl ⟨st, he, hw, rfl, sendRetBlock_flush hk _⟩)
    | flushR => exact .inr (.inr (.inl ⟨st, he, hw, rfl, sendRetBlock_flushR hk _⟩))
  | unchanged outs _ ho =>
    iterate 11 right
    refine ⟨rfl, ?_⟩
    rcases ho with rfl | ⟨c, -, rfl⟩ <;> simp

/-! ### Where sends come from (R105) -/

/-- The image of the active packet has `LEN` bytes (R35). -/
theorem DataSized.length_image_active {ps : Params} {b : Block} (h : DataSized ps b) :
    (image ps b.active).length = ps.len := by
  have hlen : b.active.data.length = ps.cap := dataSized_iff.mp h b.act
  rw [length_image, hlen, Params.len]

/-- Settles O41: the other rules send nothing. -/
theorem sendsComeFromThreeRules : Obligations.SendsComeFromThreeRules := by
  intro s t ⟨_, hinv⟩ hstep hne
  have hrule := stepRule_of_step hstep
  have hsent := hrule.sends_log.resolve_left hne
  have hlen := hinv.dataSized.length_image_active
  cases hrule with
  | flush w he hd hi => exact ⟨by simp [hi], rfl, hsent, hlen, .inr (.inl ⟨w, he, hd, hi, rfl⟩)⟩
  | flushR w he hd hi => exact ⟨by simp [hi], rfl, hsent, hlen, .inr (.inr ⟨w, he, hd, hi, rfl⟩)⟩
  | overflow _ hr h0 hf =>
    exact ⟨by simp [hr], rfl, hsent, hlen, .inl ⟨hr, h0, hf, (hinv.writing_of_run hr).2⟩⟩
  | unchanged outs _ ho => rcases ho with rfl | ⟨c, -, rfl⟩ <;> simp at hne
  | reset | init | write | finish | store | sendRet => simp at hne

/-! ### The engine leaves `PH = RUN` (R104, R152) -/

/-- The bytes the bits still to be written touch are at most one more than they would fill. -/
theorem stepsToLeaveRun_le (b : Block) : stepsToLeaveRun b ≤ ceilDiv b.rem.val 8 + 2 := by
  have hoff := bitOffset_lt b.active.vbc
  unfold stepsToLeaveRun ceilDiv
  split_ifs <;> omega

/-- With no event waiting, `n` steps bring the end of `PH = RUN` `n` steps nearer. -/
theorem runSteps_idleSchedule (n : Nat) {s : State} (h : PackerInv s) (he : s.events = []) :
    ∃ t, runSteps n s = .next t ∧ stepsToLeaveRun t.blk ≤ stepsToLeaveRun s.blk - n := by
  induction n generalizing s with
  | zero => exact ⟨s, rfl, le_rfl⟩
  | succ n ih =>
    obtain ⟨s', hs⟩ := invariantStepNeverStops s h
    have he' : s'.events = [] := by simp [(stepRule_of_step hs).params_events.2, he]
    have hnearer := stepsToLeaveRun_step h (.inl he) hs
    obtain ⟨t, hrun, hleft⟩ := ih (stepKeepsTheInvariant s s' h hs) he'
    exact ⟨t, (runSteps_of_step hs n).trans hrun, by omega⟩

/-- Settles O45: after as many steps as the bound says, none is left. -/
theorem engineLeavesRunWithinTheBound : Obligations.EngineLeavesRunWithinTheBound := by
  intro s hinv _ he
  obtain ⟨t, hrun, hleft⟩ := runSteps_idleSchedule (stepsToLeaveRun s.blk) hinv he
  rw [Nat.sub_self] at hleft
  exact ⟨_, t, stepsToLeaveRun_le s.blk, hrun, stepsToLeaveRun_eq_zero.mp (Nat.le_zero.mp hleft)⟩

/-! ### One step, by the event it takes (R98) -/

theorem decode_of_decodeTableWord {nbits w : Nat} {i : Instr} (h : decodeTableWord nbits w = some i) :
    decode (tableWord nbits w) = .instr i := by
  unfold decodeTableWord at h
  split at h
  · next j hd => rw [hd, Option.some.inj h]
  · cases h

/-- Settles O5: `withFetchWord` puts the word at the head of the schedule, and the step takes it off again. -/
theorem stepRunsThePresentedCommand : Obligations.StepRunsThePresentedCommand :=
  ⟨fun _ _ _ _ hl he hd => step_cmd hl he hd,
    fun s nbits w _ hl hd => step_cmd (s := s.withFetchWord nbits w) hl rfl (decode_of_decodeTableWord hd)⟩

/-- Settles O6: a tick, scheduled or not, is the engine's step at `PH = RUN` and nothing otherwise. -/
theorem engineStepsWhenRunning : Obligations.EngineStepsWhenRunning := fun _ =>
  ⟨fun hl hr he => (step_empty hl he).trans (takeTick_run hr),
    fun hl hr he => (step_empty hl he).trans (takeTick_not_run hr),
    fun _ hl hr he => step_tick_run hl he hr,
    fun _ hl hr he => (step_event hl he).trans (takeTick_not_run hr),
    step_illegal⟩

/-- Settles O7: the busy check stands before every command (R98). -/
theorem busyCommandIsDropped : Obligations.BusyCommandIsDropped := fun i _ hb => exec_busy hb i

/-- Settles O24: the return is `sendRetBlock`, one equation for each command in progress. -/
theorem sendReturnFollowsTheCommandInProgress : Obligations.SendReturnFollowsTheCommandInProgress := by
  intro s st es hl he hw
  have hstep : step s = .next { s with events := es, blk := sendRetBlock s.params.cap s.blk } := by
    simpa [State.after, he] using step_sendRet_waiting hl he hw
  exact ⟨fun hk => sendRetBlock_write hk _ ▸ hstep, fun hk => sendRetBlock_flush hk _ ▸ hstep,
    fun hk => sendRetBlock_flushR hk _ ▸ hstep⟩

/-- Settles O25: a return is effective at `PH = SEND_WAIT` only. -/
theorem spuriousReturnIsIgnored : Obligations.SpuriousReturnIsIgnored :=
  fun _ _ _ hl he hw => (step_event hl he).trans (if_neg hw)

end Sys2Proof.Machine
end

section
/-! PROOFS. The reset event and the wait for a return (70_reset_and_hazards.md R130, R146). -/

namespace Sys2Proof.Machine

section
variable {s : State}

/-- A reset puts the next free draw in the block's place and nothing out (R130). -/
theorem step_reset {es : List Event} (hl : s.params.legal) (he : s.events = .reset :: es) :
    step s = .next { s with events := es, blk := Block.drawn s.params.cap s.draws, draws := s.draws + 1 } :=
  step_event hl he

/-- Settles O33: the block is a fresh draw at `PH = IDLE`, where a return is spurious and a FLUSH is accepted. -/
theorem resetEventAbandonsEverything : Obligations.ResetEventAbandonsEverything := fun s st es hl he =>
  ⟨_, step_reset hl he, rfl, rfl, dataSized_drawn s.params s.draws, rfl, rfl,
    spuriousReturnIsIgnored _ st es hl rfl (by simp), _, FlushCommand.flush.exec_idle rfl, rfl⟩

/-! ### The wait for a return -/

/-- While busy a command word is answered, by the decoder's rejection or by the drop, and does nothing else (R55, R99). -/
theorem takeCmd_busy (hb : s.blk.ph ≠ .idle) (w : CmdWord) : ∃ code, takeCmd w s = .next (s.put (.accept code)) := by
  unfold takeCmd
  split
  · exact ⟨.illegalOp, rfl⟩
  · exact ⟨.dropped, exec_busy hb _⟩

/-- Without a return or a reset, a step at `PH = SEND_WAIT` leaves the block alone and sends nothing (R104, R146). -/
theorem step_waiting (hl : s.params.legal) (hw : s.blk.ph = .sendWait) (hn : NoReturn s.events) :
    ∃ outs, step s = .next (s.after s.blk outs) ∧ sends outs = [] := by
  cases he : s.events with
  | nil =>
    refine ⟨[], ?_, rfl⟩
    have htail : s.events.tail = s.events := by rw [he]; rfl
    rw [step_empty hl he, takeTick_not_run (by simp [hw])]
    simp [State.after, htail]
  | cons e es =>
    obtain ⟨hreset, hreturn⟩ := hn e (by simp [he])
    rw [step_event hl he]
    cases e with
    | reset => exact absurd rfl hreset
    | sendRet st => exact absurd rfl (hreturn st)
    | tick =>
      refine ⟨[], ?_, rfl⟩
      rw [takeEvent, takeTick_not_run (by simp [hw])]
      simp [State.after, he]
    | cmd w =>
      obtain ⟨code, hcode⟩ := takeCmd_busy (s := { s with events := es }) (by simp [hw]) w
      refine ⟨[.accept code], ?_, rfl⟩
      rw [takeEvent, hcode]
      simp [State.put, State.after, he]

/-- So does any number of steps. -/
theorem runSteps_waiting (k : Nat) (hl : s.params.legal) (hw : s.blk.ph = .sendWait) (hn : NoReturn s.events) :
    ∃ t, runSteps k s = .next t ∧ t.blk = s.blk ∧ sends t.log = sends s.log := by
  induction k generalizing s with
  | zero => exact ⟨s, rfl, rfl, rfl⟩
  | succ k ih =>
    obtain ⟨outs, hstep, houts⟩ := step_waiting hl hw hn
    obtain ⟨t, hrun, hblk, hsends⟩ :=
      ih (s := s.after s.blk outs) hl hw fun e he => hn e (List.mem_of_mem_tail he)
    exact ⟨t, (runSteps_of_step hstep k).trans hrun, hblk, by simp [hsends, houts]⟩

end

/-- Settles O27: the block is still the waiting one at the end of the run, so the next command is dropped; a reset is
`step_reset`. -/
theorem waitForTheReturnNeverEndsByItself : Obligations.WaitForTheReturnNeverEndsByItself := by
  refine ⟨fun k s hl hw hn => ?wait, fun s es hl _ he => ⟨_, step_reset hl he, rfl, rfl, rfl⟩⟩
  case wait =>
    obtain ⟨t, hrun, hblk, hsends⟩ := runSteps_waiting k hl hw hn
    exact ⟨t, hrun, hblk, hsends, exec_busy (by simp [hblk, hw])⟩

end Sys2Proof.Machine
end

section
/-! PROOFS. What the block held before INIT (70_reset_and_hazards.md R131). Two blocks agree when they are equal in all that a
later output or level can depend on; an accepted INIT makes any two idle blocks agree, and one step answers alike on blocks
that agree. -/

namespace Sys2Proof.Machine

/-- `b` and `c` agree in all that can reach an output: the levels, the counter, the identifier and the active packet; `OPK`
while a command is in progress; `ACC` and `REM` while bits of a WRITE are still to be stored. The packet that is not active
is read by no rule before a rotation prepares it (R39). -/
structure Block.Agrees (b c : Block) : Prop where
  seq : c.seq = b.seq
  srcId : c.srcId = b.srcId
  guard : c.guard = b.guard
  ph : c.ph = b.ph
  active : c.active = b.active
  opk : b.ph ≠ .idle → c.opk = b.opk
  pending : b.ph = .run ∨ b.Writing → c.acc = b.acc ∧ c.rem = b.rem

/-- Two answers alike: the same stop, or states that differ in the block only, and there agree. -/
inductive AnswersAlike : Result → Result → Prop where
  | next {s : State} {c : Block} (h : s.blk.Agrees c) : AnswersAlike (.next s) (.next { s with blk := c })
  | fault (r : Fault) : AnswersAlike (.fault r) (.fault r)
  | refused (r : Refusal) : AnswersAlike (.refused r) (.refused r)

/-! ### The blocks the rules leave -/

theorem Block.Agrees.refl (b : Block) : b.Agrees b := ⟨rfl, rfl, rfl, rfl, rfl, fun _ => rfl, fun _ => ⟨rfl, rfl⟩⟩

/-- After INIT nothing of an idle block is left where it matters (R70, R131). -/
theorem agrees_initBlock {b c : Block} (hb : b.ph = .idle) (hc : c.ph = .idle) (cap : Nat) (sid : SourceId) :
    (initBlock cap sid b).Agrees (initBlock cap sid c) where
  seq := rfl
  srcId := rfl
  guard := rfl
  ph := hc.trans hb.symm
  active := rfl
  opk hbusy := absurd hb hbusy
  pending hwork := by simp [Block.Writing, hb] at hwork

section
variable {b c : Block} (h : b.Agrees c)
include h

/-- The sequencer's registers may be written anew, alike where they matter. -/
theorem Block.Agrees.sequencer (g : Guard) (p : Phase) {a a' : Value} {r r' : Fin 33} {k k' : Opk}
    (hk : p ≠ .idle → k' = k) (hw : p = .run ∨ p ≠ .idle ∧ k = .write → a' = a ∧ r' = r) :
    Block.Agrees { b with guard := g, acc := a, rem := r, opk := k, ph := p }
      { c with guard := g, acc := a', rem := r', opk := k', ph := p } where
  seq := h.seq
  srcId := h.srcId
  guard := rfl
  ph := rfl
  active := (Block.active_congr rfl rfl rfl).trans (h.active.trans (Block.active_congr rfl rfl rfl))
  opk := hk
  pending := hw

theorem Block.Agrees.acceptWriteBlock (v : Value) (n : Byte) : (acceptWriteBlock v n b).Agrees (acceptWriteBlock v n c) :=
  h.sequencer _ _ (fun _ => rfl) fun _ => ⟨rfl, rfl⟩

theorem Block.Agrees.startFlush {k : Opk} (hk : k ≠ .write) :
    Block.Agrees { b with opk := k, ph := .sendWait } { c with opk := k, ph := .sendWait } := by
  simpa only [h.guard] using h.sequencer b.guard .sendWait (fun _ => rfl) (by simp [hk])

theorem Block.Agrees.finish :
    Block.Agrees { b with guard := .ready, ph := .idle } { c with guard := .ready, ph := .idle } :=
  h.sequencer .ready .idle (by simp) (by simp)

theorem Block.Agrees.overflow (hr : b.ph = .run) :
    Block.Agrees { b with ph := .sendWait } { c with ph := .sendWait } := by
  simpa only [h.guard] using
    h.sequencer b.guard .sendWait (fun _ => h.opk (by simp [hr])) fun _ => h.pending (.inl hr)

theorem Block.Agrees.storeBlock (hr : b.ph = .run) (old : Byte) : (storeBlock b old).Agrees (storeBlock c old) := by
  obtain ⟨hacc, hrem⟩ := h.pending (.inl hr)
  have hadvance : (Machine.storeBlock c old).acc = (Machine.storeBlock b old).acc ∧
      (Machine.storeBlock c old).rem = (Machine.storeBlock b old).rem := by
    simp [Machine.storeBlock, h.active, hacc, hrem]
  exact {
    seq := by simpa using h.seq
    srcId := by simpa using h.srcId
    guard := by simpa using h.guard
    ph := by simpa using h.ph
    active := by rw [storeBlock_active, storeBlock_active, h.active, hacc, hrem]
    opk := by simpa using h.opk
    pending := fun _ => hadvance }

/-- A rotation prepares the new active packet from the counter and the identifier alone (R39). -/
theorem Block.Agrees.rotate (cap : Nat) : (rotate cap b).Agrees (rotate cap c) where
  seq := by simp [h.seq]
  srcId := by simp [h.srcId]
  guard := by simp [h.guard]
  ph := by simp [h.ph]
  active := by rw [rotate_active, rotate_active, h.seq, h.srcId]
  opk := by simpa using h.opk
  pending := by simpa [Block.Writing] using h.pending

theorem Block.Agrees.sendRetBlock (hs : b.ph = .sendWait) (cap : Nat) :
    (sendRetBlock cap b).Agrees (sendRetBlock cap c) := by
  have hopk : c.opk = b.opk := h.opk (by simp [hs])
  have hrotated := h.rotate cap
  cases hk : b.opk with
  | write =>
    rw [sendRetBlock_write hk, sendRetBlock_write (hopk.trans hk)]
    have hpending := h.pending (.inr ⟨by simp [hs], hk⟩)
    simpa only [hrotated.guard] using
      hrotated.sequencer (Machine.rotate cap b).guard .run (by simp [hopk]) (by simp [hpending])
  | flush =>
    rw [sendRetBlock_flush hk, sendRetBlock_flush (hopk.trans hk)]
    simpa only [h.guard] using h.sequencer b.guard .idle (by simp) (by simp)
  | flushR =>
    rw [sendRetBlock_flushR hk, sendRetBlock_flushR (hopk.trans hk)]
    simpa only [hrotated.guard] using
      hrotated.sequencer (Machine.rotate cap b).guard .idle (by simp) (by simp)

end

/-! ### The command port and the engine on blocks that agree -/

section
variable {s : State} {c : Block} (h : s.blk.Agrees c)
include h

theorem answersAlike_reject (code : AcceptCode) : AnswersAlike (reject code s) (reject code { s with blk := c }) :=
  .next (s := s.put (.accept code)) h

theorem answersAlike_startFlush {k : Opk} (hk : k ≠ .write) :
    AnswersAlike (acceptOk (startFlush k s)) (acceptOk (startFlush k { s with blk := c })) := by
  rw [acceptOk_startFlush, acceptOk_startFlush, h.active]
  exact .next (h.startFlush hk)

theorem answersAlike_whenIdle {go go' : Result} (hgo : s.blk.ph = .idle → AnswersAlike go go') :
    AnswersAlike (whenIdle s go) (whenIdle { s with blk := c } go') := by
  by_cases hi : s.blk.ph = .idle
  · rw [whenIdle_idle hi, whenIdle_idle (s := { s with blk := c }) (h.ph.trans hi)]
    exact hgo hi
  · rw [whenIdle_busy hi, whenIdle_busy (s := { s with blk := c }) (h.ph.trans_ne hi)]
    exact answersAlike_reject h .dropped

theorem answersAlike_exec (i : Instr) : AnswersAlike (exec i s) (exec i { s with blk := c }) := by
  cases i with
  | init sid => exact answersAlike_whenIdle h fun hi => .next (agrees_initBlock hi (h.ph.trans hi) _ sid)
  | write value width =>
    refine answersAlike_whenIdle h fun _ => ?_
    rw [h.guard]
    split_ifs
    · exact answersAlike_reject h .dropped
    · exact .next (h.acceptWriteBlock value width)
    · exact answersAlike_reject h .invalidWidth
  | flush => exact answersAlike_whenIdle h fun _ => answersAlike_startFlush h (by decide)
  | flushR => exact answersAlike_whenIdle h fun _ => answersAlike_startFlush h (by decide)

theorem answersAlike_storeChunk (hr : s.blk.ph = .run) :
    AnswersAlike (storeChunk s) (storeChunk { s with blk := c }) := by
  have hact : c.act = s.blk.act := by rw [Block.act, h.seq, Block.act]
  cases hread : Memory.read s.params.cap s.blk.active.data (byteIndex s.blk.active.vbc) with
  | none =>
    simp only [storeChunk, h.active, hact, hread]
    exact .fault _
  | some old =>
    rw [storeChunk_of_read hread, storeChunk_of_read (s := { s with blk := c }) (by rw [h.active]; exact hread)]
    exact .next (h.storeBlock hr old)

theorem answersAlike_engineStep (hr : s.blk.ph = .run) :
    AnswersAlike (engineStep s) (engineStep { s with blk := c }) := by
  have hrem : c.rem = s.blk.rem := (h.pending (.inl hr)).2
  unfold engineStep
  rw [hrem, h.active]
  split_ifs
  · exact .next h.finish
  · rw [overflowSend, overflowSend, emitSend, emitSend, h.active]
    exact .next (h.overflow hr)
  · exact answersAlike_storeChunk h hr

/-! ### One event, one step -/

theorem answersAlike_takeTick : AnswersAlike (takeTick s) (takeTick { s with blk := c }) := by
  unfold takeTick
  rw [h.ph]
  split_ifs with hr
  · exact answersAlike_engineStep h hr
  · exact .next h

/-- A reset leaves the same block in both machines: its free draw depends on the number of the reset alone (R130). -/
theorem answersAlike_takeEvent (e : Event) : AnswersAlike (takeEvent e s) (takeEvent e { s with blk := c }) := by
  cases e with
  | reset => exact .next (.refl _)
  | cmd w =>
    simp only [takeEvent, takeCmd]
    split
    · exact answersAlike_reject h .illegalOp
    · exact answersAlike_exec h _
  | tick => exact answersAlike_takeTick h
  | sendRet st =>
    simp only [takeEvent, takeSendRet]
    rw [h.ph]
    split_ifs with hs
    · exact .next (h.sendRetBlock hs _)
    · exact .next h

theorem answersAlike_step : AnswersAlike (step s) (step { s with blk := c }) := by
  by_cases hl : s.params.legal
  · by_cases he : s.events = []
    · rw [step_empty hl he, step_empty (s := { s with blk := c }) hl he]
      exact answersAlike_takeTick h
    · obtain ⟨e, es, he⟩ := List.exists_cons_of_ne_nil he
      rw [step_event hl he, step_event (s := { s with blk := c }) hl he]
      exact answersAlike_takeEvent (s := { s with events := es }) h e
  · rw [step_illegal hl, step_illegal (s := { s with blk := c }) hl]
    exact .refused _

end

/-! ### A run -/

/-- Steps that answer alike are followed by runs that answer alike. -/
theorem answersAlike_runSteps_succ {k : Nat} {s u : State} (hstep : AnswersAlike (step s) (step u))
    (hrest : ∀ {s' : State} {c : Block}, s'.blk.Agrees c →
      AnswersAlike (runSteps k s') (runSteps k { s' with blk := c })) :
    AnswersAlike (runSteps (k + 1) s) (runSteps (k + 1) u) := by
  rw [runSteps, runSteps]
  generalize step s = r, step u = r' at hstep ⊢
  cases hstep with
  | next h => exact hrest h
  | fault r => exact .fault r
  | refused r => exact .refused r

theorem answersAlike_runSteps (k : Nat) {s : State} {c : Block} (h : s.blk.Agrees c) :
    AnswersAlike (runSteps k s) (runSteps k { s with blk := c }) := by
  induction k generalizing s c with
  | zero => exact .next h
  | succ k ih => exact answersAlike_runSteps_succ (answersAlike_step h) ih

/-- A step that presents an INIT answers alike on any two blocks at `PH = IDLE` (R70). -/
theorem answersAlike_step_init {s : State} {b : Block} {sid : SourceId} {es : List Event} (hs : s.blk.ph = .idle)
    (hb : b.ph = .idle) (he : s.events = .cmd (encode (.init sid)) :: es) :
    AnswersAlike (step s) (step { s with blk := b }) := by
  by_cases hl : s.params.legal
  · have hd := decodeOfEncodeIsTheCommand (.init sid)
    rw [step_cmd hl he hd, step_cmd (s := { s with blk := b }) hl he hd, exec_init_idle (s := { s with events := es }) hs,
      exec_init_idle (s := { s with events := es, blk := b }) hb]
    exact .next (agrees_initBlock hs hb _ sid)
  · rw [step_illegal hl, step_illegal (s := { s with blk := b }) hl]
    exact .refused _

/-- What answers alike to a state answers a state with the same history and the same levels. -/
theorem AnswersAlike.of_next {r r' : Result} {t : State} (h : AnswersAlike r r') (ht : r = .next t) :
    ∃ u, r' = .next u ∧ u.log = t.log ∧ u.blk.busy = t.blk.busy ∧ u.blk.ready = t.blk.ready := by
  cases h with
  | next h =>
    obtain rfl := Host.Outcome.next.inj ht
    exact ⟨_, rfl, rfl, by simp [Block.busy, h.ph], by simp [Block.ready, h.guard]⟩
  | fault r => cases ht
  | refused r => cases ht

/-- Settles O34: the INIT makes the blocks agree, and every later step keeps that. A reset would keep it too, so the run need
not be free of one. -/
theorem valuesFromBeforeInitNeverReachAnOutput : Obligations.ValuesFromBeforeInitNeverReachAnOutput := by
  intro k s t b sid es _ hs hb he hrun
  cases k with
  | zero =>
    obtain rfl := Host.Outcome.next.inj hrun
    exact ⟨_, rfl, rfl, fun hk => absurd hk (Nat.lt_irrefl 0)⟩
  | succ k =>
    have halike : AnswersAlike (runSteps (k + 1) s) (runSteps (k + 1) { s with blk := b }) :=
      answersAlike_runSteps_succ (answersAlike_step_init hs hb he) (answersAlike_runSteps k)
    obtain ⟨u, hu, hlog, hlevels⟩ := halike.of_next hrun
    exact ⟨u, hu, hlog, fun _ => hlevels⟩

end Sys2Proof.Machine
end
